-- ==== Sys2Proof/Word.lean ====
section
/-! DEFINITION. The bit-vector types of the block (spec 00_scope.md R8, R9): what the spec treats as bits. Counts, sizes and
exact sums are plain `Nat` (R9: exact integers, no wrap-around). -/

namespace Sys2Proof

/-- A register slot of REG (10_state.md R24) and a command word (30_encoding.md R80). -/
abbrev Word := BitVec 32

/-- A cell of MEM (20_memory.md R60). -/
abbrev Byte := BitVec 8

/-- A 4-bit group, and a CRC4 value (00_scope.md, glossary). -/
abbrev Nibble := BitVec 4

/-- A packet header held as 16 bits: header byte 0 is bits 7..0, header byte 1 bits 15..8 (10_state.md R39). -/
abbrev Header := BitVec 16

end Sys2Proof
end

