-- ==== Sys2Proof/Config.lean ====
section
/-! DEFINITION. What an implementation fixes, and the constants of the wire format (spec 00_scope.md R5, R6, R7). -/

namespace Sys2Proof

/-- `FLAG` (00_scope.md R5). -/
def Config.flag : Nat := 5

/-- `NAME_LEN_MAX` (00_scope.md R5). -/
def Config.nameLenMax : Nat := 15

/-- `MSG_LEN_MAX` (00_scope.md R5). -/
def Config.msgLenMax : Nat := 31

/-- `HEADER_SIZE`, in bytes (00_scope.md R5). -/
def Config.headerSize : Nat := 2

/-- `PKT_MIN`, in bytes (00_scope.md R6). -/
def Config.pktMin : Nat := 4

/-- `PKT_MAX`, in bytes (00_scope.md R6). -/
def Config.pktMax : Nat := 48

/-- The values the parameter `MEM_SIZE` may take (00_scope.md R7). -/
def Config.memSizeLegal (n : Nat) : Bool :=
  decide (Config.pktMax ≤ n ∧ n ≤ 2 ^ 32)

/-- The `MEM_SIZE` of `State.reset`. DESIGN CHOICE (log entry 1), unsafe: the spec leaves the parameter open. 256 is the
value of 95_test_vectors.md. Every state carries its own `MEM_SIZE`; only `State.reset` uses this number. -/
def Config.memSizeAtReset : Nat := 256

end Sys2Proof
end

