-- ==== Sys2Proof/Syntax.lean ====
section
/-! DEFINITION. The abstract syntax: the commands (one constructor per row of spec/opcode_table.json), the registers of the
register map, and what the host can do to the block. -/

namespace Sys2Proof

/-- The commands (30_encoding.md R83), in the table's order. A command has no operand field (R82). The two reserved rows keep
the opcode that selected them, since several opcodes share a row. The ignored bits 31..4 of the word (R81) are not kept. -/
inductive Instr where
  | nop
  | crcVal
  | crcRange
  | hdrNew
  | hdrSetCrc
  | hdrChecksum
  | hdrLoad
  | hdrStore
  | pktAsm
  | pktDis
  | reservedAB (opc : BitVec 4)
  | reservedCF (opc : BitVec 4)
deriving DecidableEq, Repr

/-- The 21 named registers (10_state.md R24), in the order of their offsets. -/
inductive Reg where
  | cmd | status | crcStart | crcBits | crcValueLo | crcValueHi | crcResult
  | srcAddr | srcLen | nameAddr | nameLen | msgAddr | msgLen | dstAddr
  | hdr | hdrFields | resSize | resNameAddr | resMsgAddr | resMsgLen | memSize
deriving DecidableEq, Repr

/-- One host access (30_encoding.md R86: the tuples RW, RR, MW, MR). The last two are the accesses of a width that the space
does not have (20_memory.md R61, R65): they carry no data, since they never get a step. -/
inductive HostAccess where
  | regWrite (offset : Nat) (v : Word)
  | regRead (offset : Nat)
  | memWrite (addr : Nat) (b : Byte)
  | memRead (addr : Nat)
  | regOtherWidth (offset : Nat)
  | memOtherWidth (addr : Nat)
deriving DecidableEq, Repr

/-- What can happen to the block from outside: a host access (10_state.md R20) or the reset event (70_reset_and_hazards.md
R260). -/
inductive HostEvent where
  | access (a : HostAccess)
  | reset
deriving DecidableEq, Repr

/-- A line of a host program (30_encoding.md R86). -/
inductive Line where
  | wr (r : Reg) (v : Word)
  | rd (r : Reg)
  | sb (a : Nat) (b : Byte)
  | lb (a : Nat)
deriving DecidableEq, Repr

/-- The pseudo-instructions of host programs (30_encoding.md R87). -/
inductive Pseudo where
  | cmd (i : Instr)
  | sbs (a : Nat) (bytes : List Byte)
  | crc4 (start : Word) (value : BitVec 64) (bits : Word)
  | crcr (start addr len : Word)
  | asm (nameAddr nameLen msgAddr msgLen dstAddr : Word)
  | dis (addr len : Word)
deriving DecidableEq, Repr

end Sys2Proof
end

