-- ==== Sys2Proof/WellFormed.lean ====
section
/-! DEFINITION. Which terms of `Instr` stand for a command word: a reserved row holds only the opcodes of its row (spec
30_encoding.md R84, R85). -/

namespace Sys2Proof

/-- The reserved rows hold opcodes 0xA and 0xB, and 0xC to 0xF (30_encoding.md R85: masks 0xE and 0xC). -/
def Instr.wf : Instr → Bool
  | .nop => true
  | .crcVal => true
  | .crcRange => true
  | .hdrNew => true
  | .hdrSetCrc => true
  | .hdrChecksum => true
  | .hdrLoad => true
  | .hdrStore => true
  | .pktAsm => true
  | .pktDis => true
  | .reservedAB opc => opc &&& 0xE#4 == 0xA#4
  | .reservedCF opc => opc &&& 0xC#4 == 0xC#4

end Sys2Proof
end

