-- ==== Sys2Proof/Decode.lean ====
section
/-! DEFINITION. From command words to commands and back (spec 30_encoding.md R80 to R85). -/

namespace Sys2Proof

/-- The field `OPC` of a command word, bits 3..0 (30_encoding.md R81). -/
def opcOf (w : Word) : BitVec 4 := w.extractLsb' 0 4

/-- The row an opcode selects (30_encoding.md R83). -/
def decodeOpc (opc : BitVec 4) : Instr :=
  match opc.toNat with
  | 0x0 => .nop
  | 0x1 => .crcVal
  | 0x2 => .crcRange
  | 0x3 => .hdrNew
  | 0x4 => .hdrSetCrc
  | 0x5 => .hdrChecksum
  | 0x6 => .hdrLoad
  | 0x7 => .hdrStore
  | 0x8 => .pktAsm
  | 0x9 => .pktDis
  | 0xA => .reservedAB opc
  | 0xB => .reservedAB opc
  | _ => .reservedCF opc

/-- The decoder of command words. It is total: `OPC` alone chooses the command (30_encoding.md R81, R85). -/
def decodeWord (w : Word) : Instr := decodeOpc (opcOf w)

/-- Why a list of bytes is no command word. -/
inductive DecodeReject where
  /-- The list has another length than the four bytes of a command word (30_encoding.md R80: one length, 32 bits). Safe. -/
  | notFourBytes (length : Nat)
deriving DecidableEq, Repr

/-- A decoder's answer on bytes. -/
inductive Decoded where
  | instr (i : Instr)
  | rejected (why : DecodeReject)
deriving DecidableEq, Repr

/-- The decoder of command words written as bytes, least significant byte first. DESIGN CHOICE (log entry 6), safe: the block
takes the word whole, so no byte order within it can be observed (20_memory.md R67). -/
def decodeBytes : List Byte → Decoded
  | [b0, b1, b2, b3] => .instr (decodeWord (b3 ++ b2 ++ b1 ++ b0))
  | bs => .rejected (.notFourBytes bs.length)

/-- The bytes of a command word, least significant byte first. -/
def wordBytes (w : Word) : List Byte :=
  [w.extractLsb' 0 8, w.extractLsb' 8 8, w.extractLsb' 16 8, w.extractLsb' 24 8]

/-- The word whose low `nbits` bits are those of `w`, the rest zero. -/
def tableWord (nbits w : Nat) : Word := BitVec.ofNat 32 (w % 2 ^ nbits)

/-- What the decoder reads from a row of spec/opcode_table.json: `nbits` bits of `w`, the bits above zero. -/
def decodeTableWord (nbits w : Nat) : Option Instr :=
  if nbits ≤ 32 then
    match decodeBytes (wordBytes (tableWord nbits w)) with
    | .instr i => some i
    | .rejected _ => none
  else none

/-- The opcode of a command (30_encoding.md R83). -/
def encodeOpc : Instr → BitVec 4
  | .nop => 0x0#4
  | .crcVal => 0x1#4
  | .crcRange => 0x2#4
  | .hdrNew => 0x3#4
  | .hdrSetCrc => 0x4#4
  | .hdrChecksum => 0x5#4
  | .hdrLoad => 0x6#4
  | .hdrStore => 0x7#4
  | .pktAsm => 0x8#4
  | .pktDis => 0x9#4
  | .reservedAB opc => opc
  | .reservedCF opc => opc

/-- The encoder: the command word of a command, its ignored bits 0 as software should write them (30_encoding.md R81). -/
def encode (i : Instr) : Word := (0#28 ++ encodeOpc i : BitVec 32)

/-- A row of the opcode table: the words `w` with `w AND mask = pattern` (30_encoding.md R85). -/
structure OpcodeRow where
  mnemonic : String
  pattern : Word
  mask : Word
deriving DecidableEq, Repr

/-- The opcode table (30_encoding.md R83, R85; spec/opcode_table.json, row by row). -/
def opcodeTable : List OpcodeRow :=
  [⟨"NOP", 0x0#32, 0xF#32⟩, ⟨"CRC_VAL", 0x1#32, 0xF#32⟩, ⟨"CRC_RANGE", 0x2#32, 0xF#32⟩,
   ⟨"HDR_NEW", 0x3#32, 0xF#32⟩, ⟨"HDR_SETCRC", 0x4#32, 0xF#32⟩, ⟨"HDR_CHECKSUM", 0x5#32, 0xF#32⟩,
   ⟨"HDR_LOAD", 0x6#32, 0xF#32⟩, ⟨"HDR_STORE", 0x7#32, 0xF#32⟩, ⟨"PKT_ASM", 0x8#32, 0xF#32⟩,
   ⟨"PKT_DIS", 0x9#32, 0xF#32⟩, ⟨"RESERVED_A_B", 0xA#32, 0xE#32⟩, ⟨"RESERVED_C_F", 0xC#32, 0xC#32⟩]

/-- Which row of `opcodeTable` a command stands for. -/
def rowIndex : Instr → Nat
  | .nop => 0
  | .crcVal => 1
  | .crcRange => 2
  | .hdrNew => 3
  | .hdrSetCrc => 4
  | .hdrChecksum => 5
  | .hdrLoad => 6
  | .hdrStore => 7
  | .pktAsm => 8
  | .pktDis => 9
  | .reservedAB _ => 10
  | .reservedCF _ => 11

/-- A command word fits a row (30_encoding.md R85). -/
def OpcodeRow.fits (r : OpcodeRow) (w : Word) : Bool := w &&& r.mask == r.pattern

end Sys2Proof
end

