-- ==== Sys2Proof/Machine/State.lean ====
section
/-! DEFINITION. The state of the machine: every register of the block (spec 10_state.md R21, R24), its memory (20_memory.md
R60), and the host agent's part, which is the model's own. Also the ways a step can stop. -/

namespace Sys2Proof.Machine

/-- The error codes (60_exceptions.md R231), `ok` among them. `inconsistentSender` and `emptyBuffer` are results of the host
procedures only; no command writes them (R241, R242). -/
inductive ErrCode where
  | ok
  | emptyInput
  | nameTooLong
  | truncatedHeader
  | invalidFlag
  | invalidLength
  | truncatedPacket
  | checksumMismatch
  | inconsistentSender
  | emptyBuffer
  | invalidBits
  | addrRange
  | illegalCommand
deriving DecidableEq, Repr

/-- Why the machine stops with a fault. -/
inductive Fault where
  /-- `UninitRead`: a command or the host read a byte of MEM that nothing has written since reset (20_memory.md R75,
  60_exceptions.md R255). Raised by CRC_RANGE, HDR_LOAD, PKT_ASM, PKT_DIS and by a host byte read. Safe: the hardware goes on
  with some byte that the spec does not fix (log entry 2). -/
  | uninitRead
deriving DecidableEq, Repr

/-- Why the machine gives an event no step. -/
inductive Refusal where
  /-- The command has no meaning yet. Raised by the dispatch alone. Safe. -/
  | notModelled (mnemonic : String)
  /-- A host access that the interface does not admit (20_memory.md R61, R65, 60_exceptions.md R255). Raised by the host's
  access, never by a command. Safe: the spec gives it no step. -/
  | hostAccess
  /-- A host procedure whose preconditions do not hold (44_host_framer.md R201, 60_exceptions.md R255). Raised by HOST_ENCODE
  and HOST_DECODE, never by a step. Safe. -/
  | hostPrecondition
  /-- A host procedure's loop ran longer than the spec says it can (44_host_framer.md R203). Raised by no run that meets the
  preconditions. Safe. -/
  | hostLoopBound
deriving DecidableEq, Repr

/-- `MEM`: the bytes written since reset, addresses strictly rising. An address that is not listed is unwritten (20_memory.md
R75), so no entry can equal what an unlisted address reads as (log entry 2). -/
abbrev Memory := List Host.Cell

/-- The canonical form of `MEM`: addresses strictly rising. -/
def Memory.wf : Memory → Bool
  | [] => true
  | (a, _) :: m => m.all (fun c => decide (a < c.1)) && Memory.wf m

/-- What a line of a host program has read (30_encoding.md R86): a register (`rd`) or a byte of MEM (`lb`). -/
inductive ReadValue where
  | word (v : Word)
  | byte (b : Byte)
deriving DecidableEq, Repr

/-- The state of the machine. Each register field holds the live bits of its register (10_state.md R24, R47); `CMD` and
`HDR_FIELDS` have no storage (R25, R40). -/
structure State where
  /-- `STATUS` (10_state.md R26): ERR in bits 3..0, DONE in bit 4. -/
  status : BitVec 5
  /-- `CRC_START` (10_state.md R27). -/
  crcStart : Nibble
  /-- `CRC_BITS` (10_state.md R28). -/
  crcBits : BitVec 7
  /-- `CRC_VALUE_LO` (10_state.md R29). -/
  crcValueLo : Word
  /-- `CRC_VALUE_HI` (10_state.md R30). -/
  crcValueHi : Word
  /-- `CRC_RESULT` (10_state.md R31). -/
  crcResult : Nibble
  /-- `SRC_ADDR` (10_state.md R32). -/
  srcAddr : Word
  /-- `SRC_LEN` (10_state.md R33). -/
  srcLen : Word
  /-- `NAME_ADDR` (10_state.md R34). -/
  nameAddr : Word
  /-- `NAME_LEN` (10_state.md R35). -/
  nameLen : Word
  /-- `MSG_ADDR` (10_state.md R36). -/
  msgAddr : Word
  /-- `MSG_LEN` (10_state.md R37). -/
  msgLen : Word
  /-- `DST_ADDR` (10_state.md R38). -/
  dstAddr : Word
  /-- `HDR` (10_state.md R39). -/
  hdr : Header
  /-- `RES_SIZE` (10_state.md R41). -/
  resSize : Word
  /-- `RES_NAME_ADDR` (10_state.md R42). -/
  resNameAddr : Word
  /-- `RES_MSG_ADDR` (10_state.md R43). -/
  resMsgAddr : Word
  /-- `RES_MSG_LEN` (10_state.md R44). -/
  resMsgLen : Word
  /-- The parameter `MEM_SIZE` (00_scope.md R7), which `MEMSIZE` reports (10_state.md R45). No event changes it. -/
  memSize : Nat
  /-- `MEM` (20_memory.md R60). -/
  mem : Memory
  /-- The MODEL's own field, the host agent (log entry 3): the events still to come, oldest first. -/
  pending : List HostEvent
  /-- The MODEL's own field, the host agent (log entry 3): the values its reads recorded, oldest first. -/
  reads : List ReadValue
deriving DecidableEq, Repr

/-- The block right after reset (10_state.md R48, 70_reset_and_hazards.md R260): every register 0, every byte of MEM
unwritten. The parameter `MEM_SIZE` and the host agent's part are not the block's to reset (log entry 5). -/
def State.afterReset (memSize : Nat) (pending : List HostEvent) (reads : List ReadValue) : State where
  status := 0#5
  crcStart := 0#4
  crcBits := 0#7
  crcValueLo := 0#32
  crcValueHi := 0#32
  crcResult := 0#4
  srcAddr := 0#32
  srcLen := 0#32
  nameAddr := 0#32
  nameLen := 0#32
  msgAddr := 0#32
  msgLen := 0#32
  dstAddr := 0#32
  hdr := 0#16
  resSize := 0#32
  resNameAddr := 0#32
  resMsgAddr := 0#32
  resMsgLen := 0#32
  memSize := memSize
  mem := []
  pending := pending
  reads := reads

/-- The machine right after reset, with nothing asked of the block yet (70_reset_and_hazards.md R261). -/
def State.reset : State := State.afterReset Config.memSizeAtReset [] []

end Sys2Proof.Machine
end

