-- ==== Sys2Proof/Machine/Flags.lean ====
section
/-! DEFINITION. The flags: the numbers of the error codes and the value every command writes to `STATUS` (spec
60_exceptions.md R231, R232, 10_state.md R26). -/

namespace Sys2Proof.Machine

/-- The number of an error code (60_exceptions.md R231). -/
def ErrCode.code : ErrCode → BitVec 4
  | .ok => 0#4
  | .emptyInput => 1#4
  | .nameTooLong => 2#4
  | .truncatedHeader => 3#4
  | .invalidFlag => 4#4
  | .invalidLength => 5#4
  | .truncatedPacket => 6#4
  | .checksumMismatch => 7#4
  | .inconsistentSender => 8#4
  | .emptyBuffer => 9#4
  | .invalidBits => 10#4
  | .addrRange => 11#4
  | .illegalCommand => 12#4

/-- What a command that ends with `e` writes to `STATUS`: `16 + code` (60_exceptions.md R232). -/
def statusOf (e : ErrCode) : BitVec 5 := 1#1 ++ e.code

/-- `STATUS.ERR` (10_state.md R26). -/
def State.err (s : State) : BitVec 4 := s.status.extractLsb' 0 4

/-- `STATUS.DONE` (10_state.md R26). -/
def State.done (s : State) : Bool := s.status.getLsbD 4

/-- `STATUS <- 16 + code` (60_exceptions.md R232). -/
def State.withStatus (s : State) (e : ErrCode) : State := { s with status := statusOf e }

end Sys2Proof.Machine
end

