-- ==== Sys2Proof/Machine/Ops.lean ====
section
/-! DEFINITION. The shared operations: reading and writing MEM, the range check, the updates a command makes, and how a command
ends (spec 20_memory.md R61 to R64, 40_command.md R102, R103). The block has no traps (60_exceptions.md R230, R250, R251): to
take an error is `raiseError`, and there is nothing to return from. -/

namespace Sys2Proof.Machine

/-- One byte of MEM; `none` where nothing has written it since reset (20_memory.md R61, R75). -/
def Memory.read : Memory → Nat → Option Byte
  | [], _ => none
  | (k, v) :: m, a => if a = k then some v else Memory.read m a

/-- `MEM[a] <- b` (20_memory.md R61), the canonical form kept. -/
def Memory.write : Memory → Nat → Byte → Memory
  | [], a, b => [(a, b)]
  | (k, v) :: m, a, b =>
    if a < k then (a, b) :: (k, v) :: m
    else if a = k then (a, b) :: m
    else (k, v) :: Memory.write m a b

/-- `MemRead(a, n)` (20_memory.md R62); `none` where a byte read was never written. -/
def Memory.readBytes (m : Memory) : Nat → Nat → Option (List Byte)
  | _, 0 => some []
  | a, n + 1 =>
    match m.read a with
    | none => none
    | some b =>
      match Memory.readBytes m (a + 1) n with
      | none => none
      | some bs => some (b :: bs)

/-- `MemWrite(a, n, L)` with `n = len(L)` (20_memory.md R63). -/
def Memory.writeBytes (m : Memory) : Nat → List Byte → Memory
  | _, [] => m
  | a, b :: bs => Memory.writeBytes (m.write a b) (a + 1) bs

/-- The header in the two bytes at `a`: `MemRead(a, 2)` as `b0 + 256 * b1` (42_header.md R140, R150). -/
def Memory.readHeader (m : Memory) (a : Nat) : Option Header :=
  match m.readBytes a 2 with
  | some [b0, b1] => some (b1 ++ b0)
  | _ => none

/-- `InRange(a, n)`, exact (20_memory.md R64). -/
def State.inRange (s : State) (a n : Nat) : Bool := decide (n = 0 ∨ a + n ≤ s.memSize)

/-- `reg[CRC_RESULT] <- c`. -/
def State.withCrcResult (s : State) (c : Nibble) : State := { s with crcResult := c }

/-- `reg[HDR] <- h`. -/
def State.withHdr (s : State) (h : Header) : State := { s with hdr := h }

/-- The four `RES_*` registers (10_state.md R41 to R44). -/
def State.withResults (s : State) (size nameAddr msgAddr msgLen : Nat) : State :=
  { s with
    resSize := BitVec.ofNat 32 size
    resNameAddr := BitVec.ofNat 32 nameAddr
    resMsgAddr := BitVec.ofNat 32 msgAddr
    resMsgLen := BitVec.ofNat 32 msgLen }

/-- MEM after the writes of a command or of the host. -/
def State.withMem (s : State) (m : Memory) : State := { s with mem := m }

/-- The host records a value it has read (30_encoding.md R86). -/
def State.recorded (s : State) (v : ReadValue) : State := { s with reads := s.reads ++ [v] }

/-- The host's events still to come. -/
def State.withPending (s : State) (es : List HostEvent) : State := { s with pending := es }

/-- A command ends without an error (40_command.md R102). `s` has the command's other effects. -/
def complete (s : State) : Host.Outcome State Fault Refusal := .next (s.withStatus .ok)

/-- `raise e`: the command ends at once and changes `STATUS` only (40_command.md R103, 60_exceptions.md R230). -/
def raiseError (e : ErrCode) (s : State) : Host.Outcome State Fault Refusal := .next (s.withStatus e)

end Sys2Proof.Machine
end

