-- ==== Sys2Proof/Machine/Command.lean ====
section
/-! DEFINITION. The commands of no unit: NOP and the reserved opcodes (spec 40_command.md R104, R105). -/

namespace Sys2Proof.Machine

/-- NOP (40_command.md R104): no effect but `STATUS`. -/
def execNop (s : State) : Host.Outcome State Fault Refusal := complete s

/-- The reserved opcodes 0xA and 0xB (40_command.md R105). -/
def execReservedAB (_opc : BitVec 4) (s : State) : Host.Outcome State Fault Refusal := raiseError .illegalCommand s

/-- The reserved opcodes 0xC to 0xF (40_command.md R105). -/
def execReservedCF (_opc : BitVec 4) (s : State) : Host.Outcome State Fault Refusal := raiseError .illegalCommand s

end Sys2Proof.Machine
end

