-- ==== Sys2Proof/Machine/Operands.lean ====
section
/-! DEFINITION. The operands of the commands: the 64-bit CRC operand, and the fields of a header (spec 10_state.md R30,
42_header.md R140 to R146, 43_packet.md R170). -/

namespace Sys2Proof.Machine

/-- The operand `value` of CRC_VAL: `CRC_VALUE_HI * 2^32 + CRC_VALUE_LO` (10_state.md R30). -/
def State.crcValue (s : State) : BitVec 64 := s.crcValueHi ++ s.crcValueLo

/-- `get_flag(h) = h[2:0]` (42_header.md R142). -/
def getFlag (h : Header) : BitVec 3 := h.extractLsb' 0 3

/-- `get_name_len(h) = h[6:3]` (42_header.md R142). -/
def getNameLen (h : Header) : BitVec 4 := h.extractLsb' 3 4

/-- `get_msg_len(h) = h[7] + 2 * h[11:8]` (42_header.md R142). -/
def getMsgLen (h : Header) : BitVec 5 := h.extractLsb' 8 4 ++ h.extractLsb' 7 1

/-- `get_crc4(h) = h[15:12]` (42_header.md R142). -/
def getCrc4 (h : Header) : Nibble := h.extractLsb' 12 4

/-- `pack(f, n, m, c)` (42_header.md R141), for values in the ranges of that rule (log entry 12). -/
def pack (f n m c : Nat) : Header :=
  BitVec.ofNat 16 (f + 8 * n + 128 * (m % 2) + 256 * (m / 2) + 4096 * c)

/-- The header with its `crc4` field replaced: `h[11:0] + 4096 * c` (42_header.md R148). -/
def setCrc4 (h : Header) (c : Nibble) : Header := c ++ h.extractLsb' 0 12

/-- The zeroed header `h AND 0x0FFF` (42_header.md R146). -/
def zeroedHeader (h : Header) : Header := h &&& 0x0FFF#16

/-- The two bytes of a header in wire order (42_header.md R140, 20_memory.md R66). -/
def headerBytes (h : Header) : List Byte := [h.extractLsb' 0 8, h.extractLsb' 8 8]

/-- A well-formed header (42_header.md R143). -/
def headerWf (h : Header) : Bool :=
  decide ((getFlag h).toNat = Config.flag ∧ getNameLen h ≠ 0#4 ∧ getMsgLen h ≠ 0#5)

/-- The size of the packet a header declares: `2 + name_len + msg_len` (43_packet.md R170). -/
def declaredSize (h : Header) : Nat := Config.headerSize + (getNameLen h).toNat + (getMsgLen h).toNat

/-- `HDR_FIELDS`, each field in its own byte lane (10_state.md R40). -/
def hdrFields (h : Header) : Word :=
  0#4 ++ getCrc4 h ++ 0#3 ++ getMsgLen h ++ 0#4 ++ getNameLen h ++ 0#5 ++ getFlag h

end Sys2Proof.Machine
end

