-- ==== Sys2Proof/Machine/Crc.lean ====
section
/-! DEFINITION. The CRC4 generator: the table, the two functions, and the commands CRC_VAL and CRC_RANGE (spec 41_crc4.md). -/

namespace Sys2Proof.Machine

/-- The CRC4 table `T` (41_crc4.md R120). -/
def crcTable : List Nibble :=
  [0x0#4, 0x7#4, 0xE#4, 0x9#4, 0xB#4, 0xC#4, 0x5#4, 0x2#4, 0x1#4, 0x6#4, 0xF#4, 0x8#4, 0xA#4, 0xD#4, 0x4#4, 0x3#4]

/-- `T[i]` (41_crc4.md R120). -/
def crcT (i : Nibble) : Nibble := crcTable.getD i.toNat 0#4

/-- `Fold(c, d) = T[c XOR d]` (41_crc4.md R122). -/
def crcFold (c d : Nibble) : Nibble := crcT (c ^^^ d)

/-- The loop of `crc4`: folds the low `n` nibbles of `v`, the most significant first (41_crc4.md R123). -/
def foldNibbles (v : BitVec 64) : Nat → Nibble → Nibble
  | 0, c => c
  | n + 1, c => foldNibbles v n (crcFold c (v.extractLsb' (4 * n) 4))

/-- The bits of `value` at and above `bits` masked off (41_crc4.md R123). -/
def maskLow (value : BitVec 64) (bits : Nat) : BitVec 64 :=
  if bits < 64 then value &&& BitVec.ofNat 64 (2 ^ bits - 1) else value

/-- `crc4(start, value, bits)` (41_crc4.md R123), for `bits <= 64` (log entry 12). -/
def crc4 (start : Nibble) (value : BitVec 64) (bits : Nat) : Nibble :=
  foldNibbles (maskLow value bits) ((bits + 3) / 4) start

/-- `crc4_range(start, L)` (41_crc4.md R124). -/
def crc4Range : Nibble → List Byte → Nibble
  | c, [] => c
  | c, b :: bs => crc4Range (crc4 c (b.setWidth 64) 8) bs

/-- CRC_VAL (41_crc4.md R125). -/
def execCrcVal (s : State) : Host.Outcome State Fault Refusal :=
  if 64 < s.crcBits.toNat then raiseError .invalidBits s
  else complete (s.withCrcResult (crc4 s.crcStart s.crcValue s.crcBits.toNat))

/-- CRC_RANGE (41_crc4.md R126). -/
def execCrcRange (s : State) : Host.Outcome State Fault Refusal :=
  if s.inRange s.srcAddr.toNat s.srcLen.toNat then
    match s.mem.readBytes s.srcAddr.toNat s.srcLen.toNat with
    | none => .fault .uninitRead
    | some bytes => complete (s.withCrcResult (crc4Range s.crcStart bytes))
  else raiseError .addrRange s

end Sys2Proof.Machine
end

