-- ==== Sys2Proof/Machine/HeaderCodec.lean ====
section
/-! DEFINITION. The header encoder/decoder: HDR_NEW, HDR_SETCRC, HDR_CHECKSUM, HDR_LOAD and HDR_STORE (spec 42_header.md R147
to R151). -/

namespace Sys2Proof.Machine

/-- HDR_NEW (42_header.md R147). The lengths are full 32-bit values, never truncated into their fields. -/
def execHdrNew (s : State) : Host.Outcome State Fault Refusal :=
  if s.nameLen.toNat = 0 ∨ Config.nameLenMax < s.nameLen.toNat ∨ s.msgLen.toNat = 0 ∨ Config.msgLenMax < s.msgLen.toNat then
    raiseError .invalidLength s
  else complete (s.withHdr (pack Config.flag s.nameLen.toNat s.msgLen.toNat 0))

/-- HDR_SETCRC (42_header.md R148). -/
def execHdrSetCrc (s : State) : Host.Outcome State Fault Refusal :=
  complete (s.withHdr (setCrc4 s.hdr s.crcResult))

/-- HDR_CHECKSUM (42_header.md R149): the CRC4 of the zeroed header, from 0. -/
def execHdrChecksum (s : State) : Host.Outcome State Fault Refusal :=
  complete (s.withCrcResult (crc4Range 0#4 (headerBytes (zeroedHeader s.hdr))))

/-- HDR_LOAD (42_header.md R150). It validates nothing (90_conflicts.md C7, C8). -/
def execHdrLoad (s : State) : Host.Outcome State Fault Refusal :=
  if s.inRange s.srcAddr.toNat s.srcLen.toNat then
    if s.srcLen.toNat < Config.headerSize then raiseError .truncatedHeader s
    else
      match s.mem.readHeader s.srcAddr.toNat with
      | none => .fault .uninitRead
      | some h => complete (s.withHdr h)
  else raiseError .addrRange s

/-- HDR_STORE (42_header.md R151). -/
def execHdrStore (s : State) : Host.Outcome State Fault Refusal :=
  if s.inRange s.dstAddr.toNat Config.headerSize then
    complete (s.withMem (s.mem.writeBytes s.dstAddr.toNat (headerBytes s.hdr)))
  else raiseError .addrRange s

end Sys2Proof.Machine
end

