-- ==== Sys2Proof/Machine/PacketCodec.lean ====
section
/-! DEFINITION. The packet assembler/disassembler: packets, their checksum, PKT_ASM and PKT_DIS (spec 43_packet.md). -/

namespace Sys2Proof.Machine

/-- `PktCrc(P)`: the CRC4 of a packet's bytes with the `crc4` field of its header zeroed, from 0 (43_packet.md R171). -/
def pktCrc : List Byte → Nibble
  | b0 :: b1 :: body => crc4Range 0#4 (b0 :: (b1 &&& 0x0F#8) :: body)
  | short => crc4Range 0#4 short

/-- A well-formed packet (43_packet.md R172). -/
def packetWf : List Byte → Bool
  | b0 :: b1 :: body =>
    headerWf (b1 ++ b0) && decide (body.length + Config.headerSize = declaredSize (b1 ++ b0)) &&
      decide (getCrc4 (b1 ++ b0) = pktCrc (b0 :: b1 :: body))
  | _ => false

/-- The header PKT_ASM gives a name and a chunk, its `crc4` field filled in (43_packet.md R173, steps 3 and 5). -/
def packetHeader (name chunk : List Byte) : Header :=
  setCrc4 (pack Config.flag name.length chunk.length 0)
    (crc4Range 0#4 (headerBytes (pack Config.flag name.length chunk.length 0) ++ name ++ chunk))

/-- The bytes of the packet PKT_ASM lays out (43_packet.md R173, step 4). -/
def packetBytes (name chunk : List Byte) : List Byte :=
  headerBytes (packetHeader name chunk) ++ name ++ chunk

/-- How many message bytes PKT_ASM takes: `min(MSG_LEN, 31)` (43_packet.md R173, step 2). -/
def State.chunkLen (s : State) : Nat := min s.msgLen.toNat Config.msgLenMax

/-- The size of the packet PKT_ASM lays out (43_packet.md R173). -/
def State.asmSize (s : State) : Nat := Config.headerSize + s.nameLen.toNat + s.chunkLen

/-- PKT_ASM (43_packet.md R173). The sources are read before any byte is written (R174). -/
def execPktAsm (s : State) : Host.Outcome State Fault Refusal :=
  if s.nameLen.toNat = 0 then raiseError .emptyInput s
  else if Config.nameLenMax < s.nameLen.toNat then raiseError .nameTooLong s
  else if s.msgLen.toNat = 0 then raiseError .emptyInput s
  else if s.inRange s.nameAddr.toNat s.nameLen.toNat && s.inRange s.msgAddr.toNat s.chunkLen
      && s.inRange s.dstAddr.toNat s.asmSize then
    match s.mem.readBytes s.nameAddr.toNat s.nameLen.toNat, s.mem.readBytes s.msgAddr.toNat s.chunkLen with
    | some name, some chunk =>
      complete
        ((((s.withMem (s.mem.writeBytes s.dstAddr.toNat (packetBytes name chunk))).withHdr
          (packetHeader name chunk)).withCrcResult (getCrc4 (packetHeader name chunk))).withResults
          s.asmSize (s.dstAddr.toNat + 2) (s.dstAddr.toNat + 2 + s.nameLen.toNat) s.chunkLen)
    | _, _ => .fault .uninitRead
  else raiseError .addrRange s

/-- PKT_DIS (43_packet.md R175). Bytes after the packet are not read (R176); MEM is never written. -/
def execPktDis (s : State) : Host.Outcome State Fault Refusal :=
  if s.inRange s.srcAddr.toNat s.srcLen.toNat then
    if s.srcLen.toNat < Config.headerSize then raiseError .truncatedHeader s
    else
      match s.mem.readHeader s.srcAddr.toNat with
      | none => .fault .uninitRead
      | some h =>
        if (getFlag h).toNat ≠ Config.flag then raiseError .invalidFlag s
        else if getNameLen h = 0#4 ∨ getMsgLen h = 0#5 then raiseError .invalidLength s
        else if s.srcLen.toNat < declaredSize h then raiseError .truncatedPacket s
        else
          match s.mem.readBytes (s.srcAddr.toNat + 2) ((getNameLen h).toNat + (getMsgLen h).toNat) with
          | none => .fault .uninitRead
          | some body =>
            if crc4Range 0#4 (headerBytes (zeroedHeader h) ++ body) ≠ getCrc4 h then raiseError .checksumMismatch s
            else
              complete
                (((s.withHdr h).withCrcResult (crc4Range 0#4 (headerBytes (zeroedHeader h) ++ body))).withResults
                  (declaredSize h) (s.srcAddr.toNat + 2) (s.srcAddr.toNat + 2 + (getNameLen h).toNat)
                  (getMsgLen h).toNat)
  else raiseError .addrRange s

end Sys2Proof.Machine
end

