-- ==== Sys2Proof/Machine/Dispatch.lean ====
section
/-! DEFINITION. What each command does: one arm per constructor (spec 40_command.md R100). -/

namespace Sys2Proof.Machine

def exec (i : Instr) (s : State) : Host.Outcome State Fault Refusal :=
  match i with
  | .nop => Sys2Proof.Machine.execNop s
  | .crcVal => Sys2Proof.Machine.execCrcVal s
  | .crcRange => Sys2Proof.Machine.execCrcRange s
  | .hdrNew => Sys2Proof.Machine.execHdrNew s
  | .hdrSetCrc => Sys2Proof.Machine.execHdrSetCrc s
  | .hdrChecksum => Sys2Proof.Machine.execHdrChecksum s
  | .hdrLoad => Sys2Proof.Machine.execHdrLoad s
  | .hdrStore => Sys2Proof.Machine.execHdrStore s
  | .pktAsm => Sys2Proof.Machine.execPktAsm s
  | .pktDis => Sys2Proof.Machine.execPktDis s
  | .reservedAB opc => Sys2Proof.Machine.execReservedAB opc s
  | .reservedCF opc => Sys2Proof.Machine.execReservedCF opc s

end Sys2Proof.Machine
end

