-- ==== Sys2Proof/Machine/RegMap.lean ====
section
/-! DEFINITION. The register space REG: offsets, access kinds, live bits, and what a host read or write of a register does
(spec 10_state.md R24 to R47). -/

namespace Sys2Proof.Machine

/-- All named registers, in the order of the map (10_state.md R24). -/
def allRegs : List Reg :=
  [.cmd, .status, .crcStart, .crcBits, .crcValueLo, .crcValueHi, .crcResult, .srcAddr, .srcLen, .nameAddr, .nameLen,
   .msgAddr, .msgLen, .dstAddr, .hdr, .hdrFields, .resSize, .resNameAddr, .resMsgAddr, .resMsgLen, .memSize]

/-- A register's byte offset in REG (10_state.md R24). -/
def regOffset : Reg → Nat
  | .cmd => 0x00
  | .status => 0x04
  | .crcStart => 0x08
  | .crcBits => 0x0C
  | .crcValueLo => 0x10
  | .crcValueHi => 0x14
  | .crcResult => 0x18
  | .srcAddr => 0x1C
  | .srcLen => 0x20
  | .nameAddr => 0x24
  | .nameLen => 0x28
  | .msgAddr => 0x2C
  | .msgLen => 0x30
  | .dstAddr => 0x34
  | .hdr => 0x38
  | .hdrFields => 0x3C
  | .resSize => 0x40
  | .resNameAddr => 0x44
  | .resMsgAddr => 0x48
  | .resMsgLen => 0x4C
  | .memSize => 0x50

/-- The access kinds of the map (10_state.md R24): `W`, `RW`, `R`, `C`. -/
inductive AccessKind where
  | writeOnly
  | readWrite
  | readOnly
  | constant
deriving DecidableEq, Repr

/-- A register's access kind (10_state.md R24). -/
def regKind : Reg → AccessKind
  | .cmd => .writeOnly
  | .crcStart | .crcBits | .crcValueLo | .crcValueHi | .srcAddr | .srcLen | .nameAddr | .nameLen
  | .msgAddr | .msgLen | .dstAddr | .hdr => .readWrite
  | .status | .crcResult | .hdrFields | .resSize | .resNameAddr | .resMsgAddr | .resMsgLen => .readOnly
  | .memSize => .constant

/-- A register's live bits (10_state.md R24). -/
def regLive : Reg → Word
  | .cmd => 0x0000000F#32
  | .status => 0x0000001F#32
  | .crcStart | .crcResult => 0x0000000F#32
  | .crcBits => 0x0000007F#32
  | .hdr => 0x0000FFFF#32
  | .hdrFields => 0x0F1F0F07#32
  | .crcValueLo | .crcValueHi | .srcAddr | .srcLen | .nameAddr | .nameLen | .msgAddr | .msgLen | .dstAddr
  | .resSize | .resNameAddr | .resMsgAddr | .resMsgLen | .memSize => 0xFFFFFFFF#32

/-- What a read of a register returns (10_state.md R25 to R45). It changes nothing (20_memory.md R70). -/
def regRead (r : Reg) (s : State) : Word :=
  match r with
  | .cmd => 0#32
  | .status => s.status.setWidth 32
  | .crcStart => s.crcStart.setWidth 32
  | .crcBits => s.crcBits.setWidth 32
  | .crcValueLo => s.crcValueLo
  | .crcValueHi => s.crcValueHi
  | .crcResult => s.crcResult.setWidth 32
  | .srcAddr => s.srcAddr
  | .srcLen => s.srcLen
  | .nameAddr => s.nameAddr
  | .nameLen => s.nameLen
  | .msgAddr => s.msgAddr
  | .msgLen => s.msgLen
  | .dstAddr => s.dstAddr
  | .hdr => s.hdr.setWidth 32
  | .hdrFields => hdrFields s.hdr
  | .resSize => s.resSize
  | .resNameAddr => s.resNameAddr
  | .resMsgAddr => s.resMsgAddr
  | .resMsgLen => s.resMsgLen
  | .memSize => BitVec.ofNat 32 s.memSize

/-- What a host write does to the registers: an `RW` register keeps the live bits, the others ignore the write (10_state.md
R27 to R47). The command that a write of `CMD` starts (R25) is `issueAccess`'s. -/
def regWrite (r : Reg) (v : Word) (s : State) : State :=
  match r with
  | .crcStart => { s with crcStart := v.setWidth 4 }
  | .crcBits => { s with crcBits := v.setWidth 7 }
  | .crcValueLo => { s with crcValueLo := v }
  | .crcValueHi => { s with crcValueHi := v }
  | .srcAddr => { s with srcAddr := v }
  | .srcLen => { s with srcLen := v }
  | .nameAddr => { s with nameAddr := v }
  | .nameLen => { s with nameLen := v }
  | .msgAddr => { s with msgAddr := v }
  | .msgLen => { s with msgLen := v }
  | .dstAddr => { s with dstAddr := v }
  | .hdr => { s with hdr := v.setWidth 16 }
  | .cmd | .status | .crcResult | .hdrFields | .resSize | .resNameAddr | .resMsgAddr | .resMsgLen | .memSize => s

/-- A word slot of REG: a named register, or a reserved one (10_state.md R24, R46). -/
inductive Slot where
  | named (r : Reg)
  | reserved
deriving DecidableEq, Repr

/-- The slot at an offset; `none` where the host has no access (20_memory.md R65: not a multiple of 4, or above 0x7C). -/
def slotAt (offset : Nat) : Option Slot :=
  if offset % 4 = 0 ∧ offset ≤ 0x7C then
    match allRegs.find? (fun r => regOffset r == offset) with
    | some r => some (.named r)
    | none => some .reserved
  else none

/-- What a host read of a slot returns; a reserved slot reads 0 (10_state.md R46). -/
def slotRead (p : Slot) (s : State) : Word :=
  match p with
  | .named r => regRead r s
  | .reserved => 0#32

end Sys2Proof.Machine
end

