-- ==== Sys2Proof/Machine/Access.lean ====
section
/-! DEFINITION. The host interface: what one host access does (spec 20_memory.md R61, R65, R70, 40_command.md R100), the reset
event (70_reset_and_hazards.md R260), and the host's assembly syntax (30_encoding.md R86, R87). -/

namespace Sys2Proof.Machine

/-- One host access; one that the interface does not admit (20_memory.md R61, R65) gets no step. A write of `CMD` runs the
command of the word; any other write changes the live bits of one register or one byte of MEM; a read changes nothing of the
block (20_memory.md R70). -/
def issueAccess (a : HostAccess) (s : State) : Host.Outcome State Fault Refusal :=
  match a with
  | .regWrite off v =>
    match slotAt off with
    | none => .refused .hostAccess
    | some .reserved => .next s
    | some (.named .cmd) => exec (decodeWord v) s
    | some (.named r) => .next (regWrite r v s)
  | .regRead off =>
    match slotAt off with
    | none => .refused .hostAccess
    | some p => .next (s.recorded (.word (slotRead p s)))
  | .memWrite a b =>
    if a < s.memSize then .next (s.withMem (s.mem.write a b)) else .refused .hostAccess
  | .memRead a =>
    if a < s.memSize then
      match s.mem.read a with
      | none => .fault .uninitRead
      | some b => .next (s.recorded (.byte b))
    else .refused .hostAccess
  | .regOtherWidth _ => .refused .hostAccess
  | .memOtherWidth _ => .refused .hostAccess

/-- The reset event (70_reset_and_hazards.md R260). The host agent and the parameter `MEM_SIZE` are no part of the block
(log entry 5). -/
def resetBlock (s : State) : State := State.afterReset s.memSize s.pending s.reads

/-- One event from outside. -/
def issueEvent (e : HostEvent) (s : State) : Host.Outcome State Fault Refusal :=
  match e with
  | .access a => issueAccess a s
  | .reset => .next (resetBlock s)

/-- Host accesses one after another, each as a step of the machine takes it (20_memory.md R72). -/
def issueAll : List HostAccess → State → Host.Outcome State Fault Refusal
  | [], s => .next s
  | a :: as, s =>
    match issueAccess a s with
    | .next s' => issueAll as s'
    | .fault f => .fault f
    | .refused r => .refused r

/-- The tuple a line of a host program stands for (30_encoding.md R86). -/
def lineAccess : Line → HostAccess
  | .wr r v => .regWrite (regOffset r) v
  | .rd r => .regRead (regOffset r)
  | .sb a b => .memWrite a b
  | .lb a => .memRead a

/-- One `sb` per byte, at rising addresses (30_encoding.md R87). -/
def storeLines : Nat → List Byte → List Line
  | _, [] => []
  | a, b :: bs => .sb a b :: storeLines (a + 1) bs

/-- The expansions of the pseudo-instructions (30_encoding.md R87). -/
def pseudoLines : Pseudo → List Line
  | .cmd i => [.wr .cmd (encode i)]
  | .sbs a bytes => storeLines a bytes
  | .crc4 s v n =>
    [.wr .crcStart s, .wr .crcValueLo (v.extractLsb' 0 32), .wr .crcValueHi (v.extractLsb' 32 32), .wr .crcBits n,
     .wr .cmd (encode .crcVal)]
  | .crcr s a n => [.wr .crcStart s, .wr .srcAddr a, .wr .srcLen n, .wr .cmd (encode .crcRange)]
  | .asm na nl ma ml d =>
    [.wr .nameAddr na, .wr .nameLen nl, .wr .msgAddr ma, .wr .msgLen ml, .wr .dstAddr d, .wr .cmd (encode .pktAsm)]
  | .dis a n => [.wr .srcAddr a, .wr .srcLen n, .wr .cmd (encode .pktDis)]

/-- The accesses of a pseudo-instruction: no meaning beyond its expansion (30_encoding.md R87). -/
def pseudoAccesses (p : Pseudo) : List HostAccess := (pseudoLines p).map lineAccess

end Sys2Proof.Machine
end

