-- ==== Sys2Proof/Machine/Step.lean ====
section
/-! DEFINITION. One step of the machine: the next event of the host. The block fetches nothing (spec 20_memory.md R74); its
commands come from host writes to `CMD` only (40_command.md R100). -/

namespace Sys2Proof.Machine

/-- One step: the host's next event takes place. With no event to come the block is idle and nothing changes
(70_reset_and_hazards.md R261; log entry 4). -/
def step (s : State) : Host.Outcome State Fault Refusal :=
  match s.pending with
  | [] => .next s
  | e :: es => issueEvent e (s.withPending es)

/-- The next event is the host's write of the command word to `CMD` (log entry 3: the block has no program of its own, so this
stands for the host). -/
def State.withFetchWord (s : State) (nbits w : Nat) : State :=
  s.withPending (.access (.regWrite (regOffset .cmd) (tableWord nbits w)) :: s.pending)

end Sys2Proof.Machine
end

