-- ==== Sys2Proof/Machine/Framer.lean ====
section
/-! DEFINITION. The host procedures HOST_ENCODE and HOST_DECODE, which drive the block with its own commands (spec
44_host_framer.md). They are outside the block (00_scope.md R3): no step runs them. -/

namespace Sys2Proof.Machine

/-- What a host procedure returns: its result, or the number of the error it fails with (44_host_framer.md: "fails with E";
60_exceptions.md R231 numbers the names). -/
inductive HostReply (α : Type) where
  | returned (a : α)
  | failed (code : BitVec 4)
deriving DecidableEq, Repr

/-- How many packets a text of `t` bytes takes: `(t + 30) div 31` (44_host_framer.md R210). -/
def packetCount (t : Nat) : Nat := (t + (Config.msgLenMax - 1)) / Config.msgLenMax

/-- How many bytes the encoding of a name and a text takes (44_host_framer.md R211). -/
def encodedSize (nameLen textLen : Nat) : Nat := textLen + packetCount textLen * (Config.headerSize + nameLen)

/-- Two regions have no byte in common. -/
def disjoint (a n b m : Nat) : Bool := decide (n = 0 ∨ m = 0 ∨ a + n ≤ b ∨ b + m ≤ a)

/-- The preconditions of HOST_ENCODE (44_host_framer.md R201): name at `na`, text at `ta`, output region at `oa`. -/
def encodePre (name text : List Byte) (na ta oa : Nat) (s : State) : Bool :=
  s.inRange na name.length && s.inRange ta text.length && s.inRange oa (encodedSize name.length text.length) &&
    decide (s.mem.readBytes na name.length = some name) && decide (s.mem.readBytes ta text.length = some text) &&
    disjoint oa (encodedSize name.length text.length) na name.length &&
    disjoint oa (encodedSize name.length text.length) ta text.length

/-- The preconditions of HOST_DECODE (44_host_framer.md R201): a buffer of `l` bytes at `ba`. The last one is the model's (log
entry 11): R204 writes `l` to the 32-bit register `SRC_LEN`, which holds no 2^32. -/
def decodePre (ba l : Nat) (s : State) : Bool :=
  s.inRange ba l && (s.mem.readBytes ba l).isSome && decide (l < 2 ^ 32)

/-- The loop of HOST_ENCODE (44_host_framer.md R202): `nl` and `tl` are the lengths of the name and of the text. The first
argument bounds the rounds; each round takes at least one byte of the text (R203). -/
def encodeLoop (na nl ta tl oa : Nat) : Nat → Nat → Nat → State → Host.Outcome (HostReply (List Byte) × State) Fault Refusal
  | 0, cur, out, s =>
    if cur < tl then .refused .hostLoopBound
    else
      match s.mem.readBytes oa out with
      | some bytes => .next (.returned bytes, s)
      | none => .fault .uninitRead
  | rounds + 1, cur, out, s =>
    if cur < tl then
      match issueAll (pseudoAccesses (.asm (BitVec.ofNat 32 na) (BitVec.ofNat 32 nl) (BitVec.ofNat 32 (ta + cur))
          (BitVec.ofNat 32 (tl - cur)) (BitVec.ofNat 32 (oa + out)))) s with
      | .next s' =>
        if (regRead .status s').extractLsb' 0 4 = ErrCode.ok.code then
          encodeLoop na nl ta tl oa rounds (cur + (regRead .resMsgLen s').toNat) (out + (regRead .resSize s').toNat) s'
        else .next (.failed ((regRead .status s').extractLsb' 0 4), s')
      | .fault f => .fault f
      | .refused r => .refused r
    else
      match s.mem.readBytes oa out with
      | some bytes => .next (.returned bytes, s)
      | none => .fault .uninitRead

/-- `HOST_ENCODE(name, text)` (44_host_framer.md R202), with the placement of R201. -/
def hostEncode (name text : List Byte) (na ta oa : Nat) (s : State) :
    Host.Outcome (HostReply (List Byte) × State) Fault Refusal :=
  if encodePre name text na ta oa s then
    if name.length = 0 then .next (.failed ErrCode.emptyInput.code, s)
    else if Config.nameLenMax < name.length then .next (.failed ErrCode.nameTooLong.code, s)
    else if text.length = 0 then .next (.failed ErrCode.emptyInput.code, s)
    else encodeLoop na name.length ta text.length oa text.length 0 0 s
  else .refused .hostPrecondition

/-- The loop of HOST_DECODE (44_host_framer.md R204): `off` bytes done, `seen` the first packet's name, `acc` the text so far. -/
def decodeLoop (ba l : Nat) : Nat → Nat → Option (List Byte) → List Byte → State →
    Host.Outcome (HostReply (List Byte × List Byte) × State) Fault Refusal
  | 0, off, seen, acc, s => if off < l then .refused .hostLoopBound else .next (.returned (seen.getD [], acc), s)
  | rounds + 1, off, seen, acc, s =>
    if off < l then
      match issueAll (pseudoAccesses (.dis (BitVec.ofNat 32 (ba + off)) (BitVec.ofNat 32 (l - off)))) s with
      | .next s' =>
        if (regRead .status s').extractLsb' 0 4 = ErrCode.ok.code then
          match s'.mem.readBytes (regRead .resNameAddr s').toNat ((regRead .hdrFields s').extractLsb' 8 4).toNat,
              s'.mem.readBytes (regRead .resMsgAddr s').toNat (regRead .resMsgLen s').toNat with
          | some nm, some chunk =>
            if seen = none ∨ seen = some nm then
              decodeLoop ba l rounds (off + (regRead .resSize s').toNat) (some nm) (acc ++ chunk) s'
            else .next (.failed ErrCode.inconsistentSender.code, s')
          | _, _ => .fault .uninitRead
        else .next (.failed ((regRead .status s').extractLsb' 0 4), s')
      | .fault f => .fault f
      | .refused r => .refused r
    else .next (.returned (seen.getD [], acc), s)

/-- `HOST_DECODE(buffer)` (44_host_framer.md R204), the buffer's `l` bytes at `ba`. -/
def hostDecode (ba l : Nat) (s : State) : Host.Outcome (HostReply (List Byte × List Byte) × State) Fault Refusal :=
  if decodePre ba l s then
    if l = 0 then .next (.failed ErrCode.emptyBuffer.code, s)
    else decodeLoop ba l l 0 none [] s
  else .refused .hostPrecondition

end Sys2Proof.Machine
end

