-- ==== Sys2Proof/Safety.lean ====
section
/-! DEFINITION. What the statements speak of: the states the machine can be in, and what "the bytes at an address" means. -/

namespace Sys2Proof.Machine

/-- The values `STATUS` can hold: 0 before any command, else `16 + code` with a code that some command writes (spec 10_state.md
R26, 60_exceptions.md R246). -/
def statusLegal (v : BitVec 5) : Bool :=
  decide (v = 0#5 ∨ (v.getLsbD 4 = true ∧ v.extractLsb' 0 4 ∉ [8#4, 9#4, 13#4, 14#4, 15#4]))

/-- The values the `RES_*` registers can hold together: all 0 before any packet, else the addresses and lengths of one packet
within MEM (10_state.md R41 to R44, 43_packet.md R170). -/
def State.resultsLegal (s : State) : Bool :=
  decide
    ((s.resSize = 0#32 ∧ s.resNameAddr = 0#32 ∧ s.resMsgAddr = 0#32 ∧ s.resMsgLen = 0#32) ∨
      (2 ≤ s.resNameAddr.toNat ∧ s.resNameAddr.toNat + 1 ≤ s.resMsgAddr.toNat ∧
        s.resMsgAddr.toNat ≤ s.resNameAddr.toNat + Config.nameLenMax ∧
        1 ≤ s.resMsgLen.toNat ∧ s.resMsgLen.toNat ≤ Config.msgLenMax ∧
        s.resNameAddr.toNat + s.resSize.toNat = s.resMsgAddr.toNat + s.resMsgLen.toNat + Config.headerSize ∧
        s.resMsgAddr.toNat + s.resMsgLen.toNat ≤ s.memSize))

/-- Every byte of MEM that is written has an address of MEM (20_memory.md R60). -/
def State.memInBounds (s : State) : Bool := s.mem.all (fun c => decide (c.1 < s.memSize))

/-- The states the machine can be in: `MEM_SIZE` legal (00_scope.md R7), MEM in canonical form and in bounds, `STATUS` and the
result registers legal. -/
def State.wf (s : State) : Bool :=
  Config.memSizeLegal s.memSize && Memory.wf s.mem && s.memInBounds && statusLegal s.status && s.resultsLegal

/-- The state an outcome goes on with. -/
def nextState? {σ φ ρ : Type} : Host.Outcome σ φ ρ → Option σ
  | .next s => some s
  | .fault _ => none
  | .refused _ => none

/-- MEM holds the list `bs` at ascending addresses from `a` (20_memory.md R66). -/
def Memory.holds (m : Memory) (a : Nat) (bs : List Byte) : Prop :=
  ∀ i (h : i < bs.length), m.read (a + i) = some bs[i]

/-- Two memories agree on every byte outside the `n` bytes at `a`. -/
def Memory.sameOutside (m m' : Memory) (a n : Nat) : Prop :=
  ∀ x, x < a ∨ a + n ≤ x → m'.read x = m.read x

/-- One bit through the shift register of `g(x) = x^4 + x^2 + x + 1`, most significant bit first: shift left, and where the bit
shifted out and the input bit differ, subtract `g` (41_crc4.md R121). -/
def serialBit (c : Nibble) (b : Bool) : Nibble := (c <<< 1) ^^^ (if c.msb = b then 0b0000#4 else 0b0111#4)

/-- The low `n` bits of a number, the most significant first. -/
def bitsMsbFirst (n v : Nat) : List Bool := (List.range n).reverse.map v.testBit

/-- `q(x) * g(x)` over GF(2), for a `q` of four bits (41_crc4.md R121). -/
def timesGenerator (q : Nibble) : BitVec 8 :=
  (if q.getLsbD 0 then 0b00010111#8 else 0#8) ^^^ (if q.getLsbD 1 then 0b00101110#8 else 0#8) ^^^
    (if q.getLsbD 2 then 0b01011100#8 else 0#8) ^^^ (if q.getLsbD 3 then 0b10111000#8 else 0#8)

/-- The header of a packet's first two bytes (43_packet.md R172). -/
def packetHeaderOf (p : List Byte) : Header := p.getD 1 0#8 ++ p.getD 0 0#8

/-- The name bytes of a packet: offsets `[2, 2 + name_len)` (43_packet.md R170). -/
def packetName (p : List Byte) : List Byte :=
  (p.drop Config.headerSize).take (getNameLen (packetHeaderOf p)).toNat

/-- The chunk bytes of a packet: offsets `[2 + name_len, size)` (43_packet.md R170). -/
def packetChunk (p : List Byte) : List Byte :=
  p.drop (Config.headerSize + (getNameLen (packetHeaderOf p)).toNat)

/-- At most `rounds` chunks of a text, each as long as PKT_ASM takes it (43_packet.md R173, step 2). -/
def chunksUpTo : Nat → List Byte → List (List Byte)
  | 0, _ => []
  | _ + 1, [] => []
  | rounds + 1, b :: bs => (b :: bs).take Config.msgLenMax :: chunksUpTo rounds ((b :: bs).drop Config.msgLenMax)

/-- The chunks of a text, 31 bytes each but for the last (44_host_framer.md R210). -/
def textChunks (text : List Byte) : List (List Byte) := chunksUpTo text.length text

end Sys2Proof.Machine
end

