-- ==== Sys2Proof/Certificates/Slice0/Obligations.lean ====
section
/-! DEFINITION. The statements about the machine, each from the rules of the spec that its docstring names. -/

open Sys2Proof Sys2Proof.Machine

/-! ## Encoding -/

/-- 30_encoding.md R81, R83, R85. Every command is read back from its word, whatever the ignored bits are, and every word is
the word of the command read from it but for the ignored bits. -/
def Obligations.DecodeEncodeAgree : Prop :=
  (∀ i : Instr, i.wf = true → ∀ ignored : BitVec 28, decodeWord (encode i ||| (ignored ++ 0#4)) = i) ∧
    ∀ w : Word, (decodeWord w).wf = true ∧ encode (decodeWord w) = w &&& 0xF#32

/-- 30_encoding.md R85 (the spec's own inference from R81 and R83): the masks and patterns of the rows, and that every word
fits exactly the row of its opcode. -/
def Obligations.EveryWordSelectsOneRow : Prop :=
  opcodeTable.map OpcodeRow.mask = List.replicate 10 0x0000000F#32 ++ [0x0000000E#32, 0x0000000C#32] ∧
    opcodeTable.map OpcodeRow.pattern = (List.range 10).map (BitVec.ofNat 32) ++ [0xA#32, 0xC#32] ∧
    ∀ w : Word, rowIndex (decodeWord w) < 12 ∧
      ∀ k r, opcodeTable[k]? = some r → (w &&& r.mask = r.pattern ↔ rowIndex (decodeWord w) = k)

/-- 30_encoding.md R83, and the words of 95_test_vectors.md 2.1. -/
def Obligations.SampleWordsDecode : Prop :=
  decodeWord 0x00000000#32 = .nop ∧ decodeWord 0xFFFFFFF0#32 = .nop ∧ decodeWord 0x00000001#32 = .crcVal ∧
    decodeWord 0x00000002#32 = .crcRange ∧ decodeWord 0x00000003#32 = .hdrNew ∧ decodeWord 0x00000004#32 = .hdrSetCrc ∧
    decodeWord 0x00000005#32 = .hdrChecksum ∧ decodeWord 0x00000006#32 = .hdrLoad ∧
    decodeWord 0x00000007#32 = .hdrStore ∧ decodeWord 0x00000008#32 = .pktAsm ∧ decodeWord 0x00000009#32 = .pktDis ∧
    decodeWord 0x000000FA#32 = .reservedAB 0xA#4 ∧ decodeWord 0x0000000F#32 = .reservedCF 0xF#4

/-! ## Steps and host accesses -/

/-- 40_command.md R100: a step whose event is a write of `CMD` is exactly the command of the word. `withFetchWord` makes that
the next event. -/
def Obligations.CommandWriteRunsDecodedCommand : Prop :=
  (∀ (s : State) (v : Word) (es : List HostEvent), s.pending = .access (.regWrite 0x00 v) :: es →
    step s = exec (decodeWord v) { s with pending := es }) ∧
  ∀ (s : State) (w : Nat), step (s.withFetchWord 32 w) = exec (decodeWord (BitVec.ofNat 32 w)) s

/-- 40_command.md R100. The events are those of the host and reset (log entries 3 and 5). An event that is no write of `CMD`
and no reset leaves what commands alone write: `STATUS`, `CRC_RESULT` and the `RES_*` registers. -/
def Obligations.OnlyCmdWriteStartsCommand : Prop :=
  ∀ (s : State) (e : HostEvent) (es : List HostEvent), s.pending = e :: es →
    (∀ v, e = .access (.regWrite 0x00 v) → step s = exec (decodeOpc (v.extractLsb' 0 4)) { s with pending := es }) ∧
    ((∀ v, e ≠ .access (.regWrite 0x00 v)) → e ≠ .reset → ∀ t, step s = .next t →
      t.status = s.status ∧ t.crcResult = s.crcResult ∧ t.resSize = s.resSize ∧ t.resNameAddr = s.resNameAddr ∧
        t.resMsgAddr = s.resMsgAddr ∧ t.resMsgLen = s.resMsgLen)

/-- 20_memory.md R70, and what a read of a named register records: the register's value (10_state.md R24, 20_memory.md R72,
30_encoding.md R86). That the host's record is the list `reads` is the model's choice (log entry 3). -/
def Obligations.AccessSideEffects : Prop :=
  ∀ s : State,
    (∀ r, issueAccess (.regRead (regOffset r)) s = .next { s with reads := s.reads ++ [.word (regRead r s)] }) ∧
    (∀ off t, issueAccess (.regRead off) s = .next t → t = { s with reads := t.reads }) ∧
    (∀ x t, issueAccess (.memRead x) s = .next t → t = { s with reads := t.reads }) ∧
    (∀ v, issueAccess (.regWrite 0x00 v) s = exec (decodeWord v) s) ∧
    (∀ off v t, off ≠ 0x00 → issueAccess (.regWrite off v) s = .next t →
      (∀ r, regOffset r ≠ off → (off = 0x38 → r ≠ .hdrFields) → regRead r t = regRead r s) ∧
        t.mem = s.mem ∧ t.memSize = s.memSize ∧ t.pending = s.pending ∧ t.reads = s.reads ∧
        issueAccess (.regWrite off v) t = .next t) ∧
    (∀ x b t, issueAccess (.memWrite x b) s = .next t →
      t = { s with mem := t.mem } ∧ (∀ y, t.mem.read y = if y = x then some b else s.mem.read y) ∧
        issueAccess (.memWrite x b) t = .next t)

/-- 20_memory.md R65. -/
def Obligations.RegAccessRefusedExactlyOffSlots : Prop :=
  ∀ (s : State) (off : Nat) (v : Word),
    (off % 4 = 0 ∧ off ≤ 0x7C →
      (∃ t, issueAccess (.regRead off) s = .next t) ∧ ∀ r, issueAccess (.regWrite off v) s ≠ .refused r) ∧
    (¬(off % 4 = 0 ∧ off ≤ 0x7C) →
      issueAccess (.regRead off) s = .refused .hostAccess ∧ issueAccess (.regWrite off v) s = .refused .hostAccess) ∧
    issueAccess (.regOtherWidth off) s = .refused .hostAccess

/-- 20_memory.md R61, and R75 for the byte that nothing has written. -/
def Obligations.HostMemAccess : Prop :=
  ∀ (s : State) (x : Nat) (b : Byte),
    (x < s.memSize →
      (∀ c, s.mem.read x = some c → issueAccess (.memRead x) s = .next { s with reads := s.reads ++ [.byte c] }) ∧
      (s.mem.read x = none → issueAccess (.memRead x) s = .fault .uninitRead) ∧
      ∃ t, issueAccess (.memWrite x b) s = .next t ∧ t = { s with mem := t.mem } ∧
        ∀ y, t.mem.read y = if y = x then some b else s.mem.read y) ∧
    (s.memSize ≤ x →
      issueAccess (.memRead x) s = .refused .hostAccess ∧ issueAccess (.memWrite x b) s = .refused .hostAccess) ∧
    issueAccess (.memOtherWidth x) s = .refused .hostAccess

/-- 20_memory.md R72: steps over a host program are its accesses one after another. That the machine runs the accesses of
`pending` is the model's choice (log entry 3). -/
def Obligations.StepsRunHostProgram : Prop :=
  ∀ (as : List HostAccess) (s : State), s.pending = [] →
    Sys2Proof.core.run as.length { s with pending := as.map .access } = issueAll as s

/-- 30_encoding.md R87 with 41_crc4.md R125: the pseudo-instruction `crc4 s, v, n` leaves the CRC4 of `v`. -/
def Obligations.PseudoCrc4ComputesCrc : Prop :=
  ∀ (st : State) (s : Word) (v : BitVec 64) (n : Word), n.toNat ≤ 64 →
    ∃ t, issueAll (pseudoAccesses (.crc4 s v n)) st = .next t ∧
      t = { st with
        crcStart := t.crcStart, crcBits := t.crcBits, crcValueLo := t.crcValueLo, crcValueHi := t.crcValueHi
        crcResult := crc4 (s.extractLsb' 0 4) v n.toNat, status := 0x10#5 } ∧
      t.crcStart = s.extractLsb' 0 4 ∧ t.crcBits.toNat = n.toNat ∧ t.crcValueHi ++ t.crcValueLo = v

/-! ## The register map -/

/-- 10_state.md R24: the 21 registers stand at the word offsets from 0x00 to 0x50, in the order of the table. -/
def Obligations.RegisterMapSlots : Prop :=
  (∀ r : Reg, slotAt (regOffset r) = some (.named r)) ∧
    allRegs.map regOffset = (List.range 21).map (fun k => 4 * k) ∧
    ∀ (off : Nat) (r : Reg), slotAt off = some (.named r) → off = regOffset r

/-- 10_state.md R46. -/
def Obligations.ReservedOffsetsReadZero : Prop :=
  ∀ (s : State) (off : Nat) (v : Word), 0x54 ≤ off → off ≤ 0x7C → off % 4 = 0 →
    issueAccess (.regRead off) s = .next { s with reads := s.reads ++ [.word 0#32] } ∧
      issueAccess (.regWrite off v) s = .next s

/-- 10_state.md R47, and what each register reads as in every state: `CMD` 0 (R25), every stored register its own field, the
bits above it zero (R26 to R39, R41 to R44). `HDR_FIELDS` (R40) and `MEMSIZE` (R45) have their own statements. -/
def Obligations.HostWriteKeepsLiveBits : Prop :=
  ∀ (r : Reg) (s : State) (v : Word),
    regRead r s &&& ~~~(regLive r) = 0#32 ∧
    (regKind r = .writeOnly → regRead r s = 0#32) ∧
    ((regRead .status s).toNat = s.status.toNat ∧ (regRead .crcStart s).toNat = s.crcStart.toNat ∧
      (regRead .crcBits s).toNat = s.crcBits.toNat ∧ (regRead .crcResult s).toNat = s.crcResult.toNat ∧
      (regRead .hdr s).toNat = s.hdr.toNat ∧
      regRead .crcValueLo s = s.crcValueLo ∧ regRead .crcValueHi s = s.crcValueHi ∧ regRead .srcAddr s = s.srcAddr ∧
      regRead .srcLen s = s.srcLen ∧ regRead .nameAddr s = s.nameAddr ∧ regRead .nameLen s = s.nameLen ∧
      regRead .msgAddr s = s.msgAddr ∧ regRead .msgLen s = s.msgLen ∧ regRead .dstAddr s = s.dstAddr ∧
      regRead .resSize s = s.resSize ∧ regRead .resNameAddr s = s.resNameAddr ∧ regRead .resMsgAddr s = s.resMsgAddr ∧
      regRead .resMsgLen s = s.resMsgLen) ∧
    (regKind r = .readWrite → ∃ t, issueAccess (.regWrite (regOffset r) v) s = .next t ∧
      regRead r t = v &&& regLive r) ∧
    (regKind r = .readOnly ∨ regKind r = .constant → issueAccess (.regWrite (regOffset r) v) s = .next s)

/-- 10_state.md R40, with the getters of 42_header.md R142 written out. -/
def Obligations.HdrFieldsIsUnpackedHdr : Prop :=
  ∀ (s : State) (v : Word),
    (regRead .hdrFields s).toNat =
      s.hdr.toNat % 8 + 2 ^ 8 * (s.hdr.toNat / 8 % 16) +
        2 ^ 16 * (s.hdr.toNat / 128 % 2 + 2 * (s.hdr.toNat / 256 % 16)) + 2 ^ 24 * (s.hdr.toNat / 4096) ∧
    issueAccess (.regWrite 0x3C v) s = .next s ∧
    ∃ t, issueAccess (.regWrite 0x38 v) s = .next t ∧ t.hdr.toNat = v.toNat % 2 ^ 16

/-- 10_state.md R45. -/
def Obligations.MemSizeRegisterIsConstant : Prop :=
  ∀ s : State, (regRead .memSize s).toNat = s.memSize % 2 ^ 32 ∧
    (∀ v, issueAccess (.regWrite 0x50 v) s = .next s) ∧ ∀ t, step s = .next t → t.memSize = s.memSize

/-! ## Reset -/

/-- 70_reset_and_hazards.md R260. That the reset event is one of the list `pending` is the model's choice (log entry 5). -/
def Obligations.ResetEventResetsBlock : Prop :=
  ∀ (s : State) (es : List HostEvent), s.pending = .reset :: es →
    ∃ t, step s = .next t ∧
      (∀ r, regRead r t = if r = .memSize then BitVec.ofNat 32 s.memSize else 0#32) ∧ ∀ x, t.mem.read x = none

/-- 10_state.md R48, for every `MEM_SIZE`. That `State.reset` is such a state with a legal `MEM_SIZE` is the model's choice
of the parameter (log entry 1). -/
def Obligations.ResetStateRegisters : Prop :=
  (∀ (n : Nat) (p : List HostEvent) (q : List ReadValue) (r : Reg),
    regRead r (State.afterReset n p q) = (if r = .memSize then BitVec.ofNat 32 n else 0#32) ∧
      headerWf (State.afterReset n p q).hdr = false ∧ ∀ x, (State.afterReset n p q).mem.read x = none) ∧
  ∃ n, Config.memSizeLegal n = true ∧ State.reset = State.afterReset n [] []

/-- 70_reset_and_hazards.md R261: the block runs nothing until the host writes `CMD`. That an idle step is a step that
changes nothing is the model's choice (log entry 4). -/
def Obligations.IdleStepChangesNothing : Prop :=
  (∀ s : State, s.pending = [] → step s = .next s) ∧ step State.reset = .next State.reset

/-! ## The commands -/

/-- 40_command.md R104. -/
def Obligations.NopWritesStatusOnly : Prop :=
  decodeWord 0#32 = .nop ∧ ∀ s : State, exec .nop s = .next { s with status := 0x10#5 }

/-- 40_command.md R105. -/
def Obligations.ReservedOpcodesRaiseIllegalCommand : Prop :=
  (∀ (s : State) (w : Word), 0xA ≤ (w.extractLsb' 0 4).toNat →
    exec (decodeWord w) s = .next { s with status := 0x1C#5 }) ∧
  ∀ (s : State) (opc : BitVec 4), exec (.reservedAB opc) s = .next { s with status := 0x1C#5 } ∧
    exec (.reservedCF opc) s = .next { s with status := 0x1C#5 }

/-- 41_crc4.md R125, with the operand of 10_state.md R30. -/
def Obligations.CrcValWritesCrc4 : Prop :=
  ∀ s : State,
    (s.crcBits.toNat ≤ 64 → exec .crcVal s = .next { s with
      crcResult := crc4 s.crcStart (BitVec.ofNat 64 (s.crcValueHi.toNat * 2 ^ 32 + s.crcValueLo.toNat)) s.crcBits.toNat
      status := 0x10#5 }) ∧
    (64 < s.crcBits.toNat → exec .crcVal s = .next { s with status := 0x1A#5 })

/-- 41_crc4.md R123. -/
def Obligations.Crc4FoldsNibblesMostSignificantFirst : Prop :=
  ∀ (start : Nibble) (value : BitVec 64) (bits : Nat), bits ≤ 64 →
    crc4 start value bits =
      ((List.range ((bits + 3) / 4)).reverse.map (fun i => BitVec.ofNat 4 (value.toNat % 2 ^ bits / 16 ^ i))).foldl
        (fun c d => crcT (c ^^^ d)) start

/-- 41_crc4.md R124. -/
def Obligations.CrcRangeFoldsBytesHighNibbleFirst : Prop :=
  ∀ (start : Nibble) (bytes : List Byte),
    crc4Range start bytes = bytes.foldl (fun c b => crc4 c (b.setWidth 64) 8) start ∧
      crc4Range start bytes =
        bytes.foldl (fun c b => crcT (crcT (c ^^^ b.extractLsb' 4 4) ^^^ b.extractLsb' 0 4)) start

/-- 41_crc4.md R120: the table. Each entry is the remainder of `i(x) * x^4` divided by `g(x)` (the spec's own explanation,
R121). -/
def Obligations.CrcTableIsPolynomialRemainder : Prop :=
  (List.range 16).map (fun i => crcT (BitVec.ofNat 4 i)) =
      [0x0#4, 0x7#4, 0xE#4, 0x9#4, 0xB#4, 0xC#4, 0x5#4, 0x2#4, 0x1#4, 0x6#4, 0xF#4, 0x8#4, 0xA#4, 0xD#4, 0x4#4, 0x3#4] ∧
    ∀ i : Nibble, ∃ q : Nibble, (i.setWidth 8) <<< 4 = timesGenerator q ^^^ (crcT i).setWidth 8

/-- The table-driven CRC (41_crc4.md R123, R124) is the CRC of the shift register of `g(x)`, bit by bit, over every value and
every byte list. The polynomial is the spec's own explanation of the table (R121). -/
def Obligations.CrcEqualsBitSerialRegister : Prop :=
  (∀ (start : Nibble) (bytes : List Byte),
    crc4Range start bytes = (bytes.flatMap (fun b => bitsMsbFirst 8 b.toNat)).foldl serialBit start) ∧
  ∀ (start : Nibble) (value : BitVec 64) (bits : Nat), bits ≤ 64 →
    crc4 start value bits =
      (bitsMsbFirst (4 * ((bits + 3) / 4)) (value.toNat % 2 ^ bits)).foldl serialBit start

/-- 41_crc4.md R127. -/
def Obligations.ZeroLengthCrcIsIdentity : Prop :=
  ∀ (c : Nibble) (v : BitVec 64), crc4 c v 0 = c ∧ crc4Range c [] = c

/-- 41_crc4.md R128 (the spec's own inference from R124). -/
def Obligations.CrcRangeComposes : Prop :=
  ∀ (c : Nibble) (as bs : List Byte), crc4Range c (as ++ bs) = crc4Range (crc4Range c as) bs

/-- 41_crc4.md R129 (the spec's own inference from R123 and R124). -/
def Obligations.ByteAlignedValueFoldsItsBytes : Prop :=
  (∀ (c : Nibble) (v : BitVec 64) (k : Nat), 1 ≤ k → k ≤ 8 →
    crc4 c v (8 * k) = crc4Range c ((List.range k).reverse.map (fun j => v.extractLsb' (8 * j) 8))) ∧
  ∀ (c : Nibble) (b0 b1 : Byte), crc4Range c [b0, b1] = crc4 c (BitVec.ofNat 64 (b0.toNat * 256 + b1.toNat)) 16

/-- 41_crc4.md R130 (the spec's own inference from R120 and R124). -/
def Obligations.CrcTableLinearAndDetectsNibbleErrors : Prop :=
  (∀ a b : Nibble, crcT (a ^^^ b) = crcT a ^^^ crcT b) ∧
  (∀ a b : Nibble, crcT a = crcT b → a = b) ∧
  (∀ (c₁ c₂ d₁ d₂ : Nibble) (l : List Byte), c₁ ^^^ c₂ = d₁ ^^^ d₂ →
    crc4Range c₁ l ^^^ crc4Range c₂ l = crc4Range d₁ l ^^^ crc4Range d₂ l) ∧
  ∀ (c : Nibble) (as bs : List Byte) (b b' : Byte),
    ((b.extractLsb' 0 4 = b'.extractLsb' 0 4) ↔ ¬(b.extractLsb' 4 4 = b'.extractLsb' 4 4)) →
      crc4Range c (as ++ b :: bs) ≠ crc4Range c (as ++ b' :: bs)

/-- 41_crc4.md R126, with `InRange` (20_memory.md R64) and `MemRead` (R62) written out. -/
def Obligations.CrcRangeFoldsMemory : Prop :=
  ∀ s : State,
    (∀ bytes : List Byte, s.srcLen.toNat = bytes.length →
      (bytes.length = 0 ∨ s.srcAddr.toNat + bytes.length ≤ s.memSize) → s.mem.holds s.srcAddr.toNat bytes →
        exec .crcRange s = .next { s with crcResult := crc4Range s.crcStart bytes, status := 0x10#5 }) ∧
    (s.srcLen.toNat ≠ 0 → s.memSize < s.srcAddr.toNat + s.srcLen.toNat →
      exec .crcRange s = .next { s with status := 0x1B#5 }) ∧
    (s.srcAddr.toNat + s.srcLen.toNat ≤ s.memSize →
      (∃ i, i < s.srcLen.toNat ∧ s.mem.read (s.srcAddr.toNat + i) = none) → exec .crcRange s = .fault .uninitRead)

/-- 42_header.md R147, with `pack` (R141) written out. -/
def Obligations.HdrNewPacksLengths : Prop :=
  ∀ s : State,
    (1 ≤ s.nameLen.toNat → s.nameLen.toNat ≤ 15 → 1 ≤ s.msgLen.toNat → s.msgLen.toNat ≤ 31 →
      ∃ t, exec .hdrNew s = .next t ∧ t = { s with hdr := t.hdr, status := 0x10#5 } ∧
        t.hdr.toNat = 5 + 8 * s.nameLen.toNat + 128 * (s.msgLen.toNat % 2) + 256 * (s.msgLen.toNat / 2)) ∧
    (s.nameLen.toNat = 0 ∨ 15 < s.nameLen.toNat ∨ s.msgLen.toNat = 0 ∨ 31 < s.msgLen.toNat →
      exec .hdrNew s = .next { s with status := 0x15#5 })

/-- 42_header.md R144 (the spec's own inference from R141 and R142). -/
def Obligations.HeaderFieldsTileHeader : Prop :=
  (∀ h : Header, pack (getFlag h).toNat (getNameLen h).toNat (getMsgLen h).toNat (getCrc4 h).toNat = h) ∧
  ∀ f n m c : Nat, f ≤ 7 → n ≤ 15 → m ≤ 31 → c ≤ 15 →
    (getFlag (pack f n m c)).toNat = f ∧ (getNameLen (pack f n m c)).toNat = n ∧
      (getMsgLen (pack f n m c)).toNat = m ∧ (getCrc4 (pack f n m c)).toNat = c

/-- 42_header.md R148. -/
def Obligations.HdrSetCrcReplacesField : Prop :=
  ∀ s : State, ∃ t, exec .hdrSetCrc s = .next t ∧ t = { s with hdr := t.hdr, status := 0x10#5 } ∧
    t.hdr.toNat = s.hdr.toNat % 4096 + 4096 * s.crcResult.toNat ∧ exec .hdrSetCrc t = .next t

/-- 42_header.md R149, with the zeroed header of R146: the stored `crc4` field does not matter. -/
def Obligations.HdrChecksumIgnoresStoredField : Prop :=
  ∀ (s : State) (c : Nibble), ∃ r : Nibble,
    r = crc4Range 0#4 [s.hdr.extractLsb' 0 8, (s.hdr.extractLsb' 8 4).setWidth 8] ∧
    exec .hdrChecksum s = .next { s with crcResult := r, status := 0x10#5 } ∧
    exec .hdrChecksum { s with hdr := c ++ s.hdr.extractLsb' 0 12 } =
      .next { s with hdr := c ++ s.hdr.extractLsb' 0 12, crcResult := r, status := 0x10#5 }

/-- 42_header.md R150. -/
def Obligations.HdrLoadReadsTwoBytes : Prop :=
  ∀ s : State,
    (s.srcLen.toNat ≠ 0 → s.memSize < s.srcAddr.toNat + s.srcLen.toNat →
      exec .hdrLoad s = .next { s with status := 0x1B#5 }) ∧
    (s.srcLen.toNat = 0 ∨ s.srcAddr.toNat + s.srcLen.toNat ≤ s.memSize → s.srcLen.toNat < 2 →
      exec .hdrLoad s = .next { s with status := 0x13#5 }) ∧
    (s.srcAddr.toNat + s.srcLen.toNat ≤ s.memSize → 2 ≤ s.srcLen.toNat →
      (∀ b0 b1, s.mem.read s.srcAddr.toNat = some b0 → s.mem.read (s.srcAddr.toNat + 1) = some b1 →
        ∃ t, exec .hdrLoad s = .next t ∧ t = { s with hdr := t.hdr, status := 0x10#5 } ∧
          t.hdr.toNat = b0.toNat + 256 * b1.toNat) ∧
      (s.mem.read s.srcAddr.toNat = none ∨ s.mem.read (s.srcAddr.toNat + 1) = none →
        exec .hdrLoad s = .fault .uninitRead))

/-- 42_header.md R151. The bytes stored to are the two at `DST_ADDR`. -/
def Obligations.HdrStoreWritesTwoBytes : Prop :=
  ∀ s : State,
    (s.dstAddr.toNat + 2 ≤ s.memSize →
      ∃ t, exec .hdrStore s = .next t ∧ t = { s with mem := t.mem, status := 0x10#5 } ∧
        t.mem.read s.dstAddr.toNat = some (s.hdr.extractLsb' 0 8) ∧
        t.mem.read (s.dstAddr.toNat + 1) = some (s.hdr.extractLsb' 8 8) ∧
        ∀ x, x ≠ s.dstAddr.toNat → x ≠ s.dstAddr.toNat + 1 → t.mem.read x = s.mem.read x) ∧
    (s.memSize < s.dstAddr.toNat + 2 → exec .hdrStore s = .next { s with status := 0x1B#5 })

/-- 43_packet.md R173 (where no check fails) and R174: the regions may overlap. The bytes stored to are those of the packet,
from `DST_ADDR` on. -/
def Obligations.PktAsmBuildsPacket : Prop :=
  ∀ (s : State) (name chunk : List Byte),
    s.nameLen.toNat = name.length → 1 ≤ name.length → name.length ≤ 15 →
    1 ≤ s.msgLen.toNat → chunk.length = min s.msgLen.toNat 31 →
    s.nameAddr.toNat + name.length ≤ s.memSize → s.msgAddr.toNat + chunk.length ≤ s.memSize →
    s.dstAddr.toNat + (2 + name.length + chunk.length) ≤ s.memSize →
    s.mem.holds s.nameAddr.toNat name → s.mem.holds s.msgAddr.toNat chunk →
    ∃ (t : State) (h0 : Nat) (c : Nibble), exec .pktAsm s = .next t ∧
      h0 = 5 + 8 * name.length + 128 * (chunk.length % 2) + 256 * (chunk.length / 2) ∧
      c = crc4Range 0#4 ([BitVec.ofNat 8 (h0 % 256), BitVec.ofNat 8 (h0 / 256)] ++ name ++ chunk) ∧
      t.mem.holds s.dstAddr.toNat
        ([BitVec.ofNat 8 (h0 % 256), BitVec.ofNat 8 (h0 / 256 + 16 * c.toNat)] ++ name ++ chunk) ∧
      s.mem.sameOutside t.mem s.dstAddr.toNat (2 + name.length + chunk.length) ∧
      t = { s with
        mem := t.mem, hdr := BitVec.ofNat 16 (h0 + 4096 * c.toNat), crcResult := c
        resSize := BitVec.ofNat 32 (2 + name.length + chunk.length)
        resNameAddr := BitVec.ofNat 32 (s.dstAddr.toNat + 2)
        resMsgAddr := BitVec.ofNat 32 (s.dstAddr.toNat + 2 + name.length)
        resMsgLen := BitVec.ofNat 32 chunk.length, status := 0x10#5 }

/-- 43_packet.md R173: the checks of PKT_ASM in their order, and the fault of an unwritten source byte (20_memory.md R75). -/
def Obligations.PktAsmChecksInOrder : Prop :=
  ∀ s : State,
    (s.nameLen.toNat = 0 → exec .pktAsm s = .next { s with status := 0x11#5 }) ∧
    (15 < s.nameLen.toNat → exec .pktAsm s = .next { s with status := 0x12#5 }) ∧
    (1 ≤ s.nameLen.toNat → s.nameLen.toNat ≤ 15 →
      (s.msgLen.toNat = 0 → exec .pktAsm s = .next { s with status := 0x11#5 }) ∧
      (1 ≤ s.msgLen.toNat →
        (s.memSize < s.nameAddr.toNat + s.nameLen.toNat ∨ s.memSize < s.msgAddr.toNat + min s.msgLen.toNat 31 ∨
            s.memSize < s.dstAddr.toNat + (2 + s.nameLen.toNat + min s.msgLen.toNat 31) →
          exec .pktAsm s = .next { s with status := 0x1B#5 }) ∧
        (s.nameAddr.toNat + s.nameLen.toNat ≤ s.memSize → s.msgAddr.toNat + min s.msgLen.toNat 31 ≤ s.memSize →
          s.dstAddr.toNat + (2 + s.nameLen.toNat + min s.msgLen.toNat 31) ≤ s.memSize →
          (∃ i, (i < s.nameLen.toNat ∧ s.mem.read (s.nameAddr.toNat + i) = none) ∨
            (i < min s.msgLen.toNat 31 ∧ s.mem.read (s.msgAddr.toNat + i) = none)) →
          exec .pktAsm s = .fault .uninitRead)))

/-- 43_packet.md R175 (where no check fails) and R176: a well-formed packet (R172) is split, and what follows it does not
matter. -/
def Obligations.PktDisSplitsWellFormedPacket : Prop :=
  ∀ (s : State) (b0 b1 : Byte) (name chunk : List Byte) (h : Header),
    h.toNat = b0.toNat + 256 * b1.toNat → (getFlag h).toNat = 5 →
    (getNameLen h).toNat = name.length → 1 ≤ name.length → (getMsgLen h).toNat = chunk.length → 1 ≤ chunk.length →
    getCrc4 h = crc4Range 0#4 ([b0, b1 &&& 0x0F#8] ++ name ++ chunk) →
    2 + name.length + chunk.length ≤ s.srcLen.toNat → s.srcAddr.toNat + s.srcLen.toNat ≤ s.memSize →
    s.mem.holds s.srcAddr.toNat ([b0, b1] ++ name ++ chunk) →
    exec .pktDis s = .next { s with
      hdr := h, crcResult := getCrc4 h
      resSize := BitVec.ofNat 32 (2 + name.length + chunk.length)
      resNameAddr := BitVec.ofNat 32 (s.srcAddr.toNat + 2)
      resMsgAddr := BitVec.ofNat 32 (s.srcAddr.toNat + 2 + name.length)
      resMsgLen := BitVec.ofNat 32 chunk.length, status := 0x10#5 }

/-- 43_packet.md R175: the checks of PKT_DIS in their order, and the fault of an unwritten byte (20_memory.md R75). -/
def Obligations.PktDisChecksInOrder : Prop :=
  ∀ s : State,
    (s.srcLen.toNat ≠ 0 → s.memSize < s.srcAddr.toNat + s.srcLen.toNat →
      exec .pktDis s = .next { s with status := 0x1B#5 }) ∧
    (s.srcLen.toNat = 0 ∨ s.srcAddr.toNat + s.srcLen.toNat ≤ s.memSize → s.srcLen.toNat < 2 →
      exec .pktDis s = .next { s with status := 0x13#5 }) ∧
    (s.srcAddr.toNat + s.srcLen.toNat ≤ s.memSize → 2 ≤ s.srcLen.toNat →
      (s.mem.read s.srcAddr.toNat = none ∨ s.mem.read (s.srcAddr.toNat + 1) = none →
        exec .pktDis s = .fault .uninitRead) ∧
      ∀ (b0 b1 : Byte) (h : Header), s.mem.read s.srcAddr.toNat = some b0 →
        s.mem.read (s.srcAddr.toNat + 1) = some b1 → h.toNat = b0.toNat + 256 * b1.toNat →
        ((getFlag h).toNat ≠ 5 → exec .pktDis s = .next { s with status := 0x14#5 }) ∧
        ((getFlag h).toNat = 5 → getNameLen h = 0#4 ∨ getMsgLen h = 0#5 →
          exec .pktDis s = .next { s with status := 0x15#5 }) ∧
        ((getFlag h).toNat = 5 → getNameLen h ≠ 0#4 → getMsgLen h ≠ 0#5 →
          (s.srcLen.toNat < 2 + (getNameLen h).toNat + (getMsgLen h).toNat →
            exec .pktDis s = .next { s with status := 0x16#5 }) ∧
          (2 + (getNameLen h).toNat + (getMsgLen h).toNat ≤ s.srcLen.toNat →
            ((∃ i, i < (getNameLen h).toNat + (getMsgLen h).toNat ∧ s.mem.read (s.srcAddr.toNat + 2 + i) = none) →
              exec .pktDis s = .fault .uninitRead) ∧
            ∀ body : List Byte, body.length = (getNameLen h).toNat + (getMsgLen h).toNat →
              s.mem.holds (s.srcAddr.toNat + 2) body → crc4Range 0#4 ([b0, b1 &&& 0x0F#8] ++ body) ≠ getCrc4 h →
                exec .pktDis s = .next { s with status := 0x17#5 })))

/-! ## Whole-machine rules -/

/-- 40_command.md R103. -/
def Obligations.FailingCommandChangesOnlyStatus : Prop :=
  ∀ (i : Instr) (s t : State), exec i s = .next t → t.err ≠ 0#4 → t = { s with status := 1#1 ++ t.err }

/-- 60_exceptions.md R246 and 10_state.md R26, with `STATUS.DONE` (60_exceptions.md R232). -/
def Obligations.CommandStatusIsDoneWithWrittenCode : Prop :=
  ∀ (i : Instr) (s t : State), exec i s = .next t →
    t.done = true ∧ (t.err.toNat ≤ 7 ∨ (10 ≤ t.err.toNat ∧ t.err.toNat ≤ 12))

/-- 30_encoding.md R82, the columns of registers and of MEM written: what no command writes, and what each register's writers
are. -/
def Obligations.CommandsWriteOnlyTheirTargets : Prop :=
  ∀ (i : Instr) (s t : State), exec i s = .next t →
    t = { s with
      status := t.status, crcResult := t.crcResult, hdr := t.hdr, resSize := t.resSize, resNameAddr := t.resNameAddr
      resMsgAddr := t.resMsgAddr, resMsgLen := t.resMsgLen, mem := t.mem } ∧
    (i ∉ [.crcVal, .crcRange, .hdrChecksum, .pktAsm, .pktDis] → t.crcResult = s.crcResult) ∧
    (i ∉ [.hdrNew, .hdrSetCrc, .hdrLoad, .pktAsm, .pktDis] → t.hdr = s.hdr) ∧
    (i ∉ [.pktAsm, .pktDis] → t.resSize = s.resSize ∧ t.resNameAddr = s.resNameAddr ∧ t.resMsgAddr = s.resMsgAddr ∧
      t.resMsgLen = s.resMsgLen) ∧
    (i ∉ [.hdrStore, .pktAsm] → t.mem = s.mem) ∧
    (i = .hdrStore → s.mem.sameOutside t.mem s.dstAddr.toNat 2) ∧
    (i = .pktAsm → s.mem.sameOutside t.mem s.dstAddr.toNat s.asmSize)

/-- 10_state.md R50. -/
def Obligations.StatusIsNoOperand : Prop :=
  ∀ (i : Instr) (s : State) (v : BitVec 5), exec i { s with status := v } = exec i s

/-- 20_memory.md R75 with 60_exceptions.md R255: a command stops only at a byte nothing has written, so over a MEM that is
written throughout every command goes on; the commands that read no MEM always go on. -/
def Obligations.CommandsStopOnlyAtUnwrittenBytes : Prop :=
  (∀ (i : Instr) (s : State), (∀ x, x < s.memSize → s.mem.read x ≠ none) → ∃ t, exec i s = .next t) ∧
  (∀ (i : Instr) (s : State), i ∉ [.crcRange, .hdrLoad, .pktAsm, .pktDis] → ∃ t, exec i s = .next t) ∧
  ∀ (i : Instr) (s : State) (r : Refusal), exec i s ≠ .refused r

/-- The model's invariant (`State.wf`): `MEM_SIZE` legal (00_scope.md R7), MEM canonical and within bounds (20_memory.md
R60), `STATUS` legal (10_state.md R26), the `RES_*` registers those of one packet (R41 to R44). Every step keeps it. -/
def Obligations.StepKeepsWellFormed : Prop :=
  ∀ s t : State, s.wf = true → step s = .next t → t.wf = true

/-- The invariant holds right after reset, for every legal `MEM_SIZE` (00_scope.md R7, 10_state.md R48). -/
def Obligations.ResetWellFormed : Prop :=
  State.reset.wf = true ∧
    ∀ (n : Nat) (p : List HostEvent) (q : List ReadValue), 48 ≤ n → n ≤ 2 ^ 32 → (State.afterReset n p q).wf = true

/-- 43_packet.md R178 (the spec's own inference from R173, R175 and R144). -/
def Obligations.AssembledPacketDisassembles : Prop :=
  ∀ s t u : State, s.memSize ≤ 2 ^ 32 → exec .pktAsm s = .next t → t.err = 0#4 →
    (∀ x, s.dstAddr.toNat ≤ x → x < s.dstAddr.toNat + t.resSize.toNat → u.mem.read x = t.mem.read x) →
    u.srcAddr = s.dstAddr → t.resSize.toNat ≤ u.srcLen.toNat → u.srcAddr.toNat + u.srcLen.toNat ≤ u.memSize →
    ∃ v, exec .pktDis u = .next v ∧ v.err = 0#4 ∧ v.hdr = t.hdr ∧ v.crcResult = t.crcResult ∧ v.resSize = t.resSize ∧
      v.resNameAddr = t.resNameAddr ∧ v.resMsgAddr = t.resMsgAddr ∧ v.resMsgLen = t.resMsgLen ∧
      v.mem.readBytes v.resNameAddr.toNat (getNameLen v.hdr).toNat = s.mem.readBytes s.nameAddr.toNat s.nameLen.toNat ∧
      v.mem.readBytes v.resMsgAddr.toNat v.resMsgLen.toNat =
        s.mem.readBytes s.msgAddr.toNat (min s.msgLen.toNat 31)

/-- 43_packet.md R179, items 1 to 3 (the spec's own inference from R175 and R130): a change of the flag, of the stored `crc4`
field, or within one nibble of the name or chunk bytes of a packet that PKT_DIS accepts. -/
def Obligations.PktDisDetectsCorruption : Prop :=
  ∀ (s t : State) (x : Nat) (b b' : Byte), exec .pktDis s = .next t → t.err = 0#4 →
    s.srcLen = t.resSize → s.mem.read x = some b →
    (x = s.srcAddr.toNat → b.extractLsb' 3 5 = b'.extractLsb' 3 5 → (b'.extractLsb' 0 3).toNat ≠ 5 →
      exec .pktDis { s with mem := s.mem.write x b' } = .next { s with mem := s.mem.write x b', status := 0x14#5 }) ∧
    (x = s.srcAddr.toNat + 1 → b.extractLsb' 0 4 = b'.extractLsb' 0 4 → b.extractLsb' 4 4 ≠ b'.extractLsb' 4 4 →
      exec .pktDis { s with mem := s.mem.write x b' } = .next { s with mem := s.mem.write x b', status := 0x17#5 }) ∧
    (s.srcAddr.toNat + 2 ≤ x → x < s.srcAddr.toNat + s.srcLen.toNat →
      ((b.extractLsb' 0 4 = b'.extractLsb' 0 4) ↔ ¬(b.extractLsb' 4 4 = b'.extractLsb' 4 4)) →
      exec .pktDis { s with mem := s.mem.write x b' } = .next { s with mem := s.mem.write x b', status := 0x17#5 })

/-! ## The host procedures -/

/-- 44_host_framer.md R202, R203, R210: under the preconditions of R201, HOST_ENCODE returns the packets of the text's
chunks, each with the whole name, and leaves them in the output region. The result depends on the name and the text alone
(R212). -/
def Obligations.HostEncodeIsPacketSequence : Prop :=
  ∀ (name text : List Byte) (na ta oa : Nat) (s : State), s.memSize ≤ 2 ^ 32 → encodePre name text na ta oa s = true →
    1 ≤ name.length → name.length ≤ 15 → 1 ≤ text.length →
    ∃ s', hostEncode name text na ta oa s = .next (.returned ((textChunks text).flatMap (packetBytes name)), s') ∧
      s'.mem.holds oa ((textChunks text).flatMap (packetBytes name))

/-- 44_host_framer.md R202: the checks before any command, in their order. -/
def Obligations.HostEncodeChecksInOrder : Prop :=
  ∀ (name text : List Byte) (na ta oa : Nat) (s : State), encodePre name text na ta oa s = true →
    (name.length = 0 → hostEncode name text na ta oa s = .next (.failed 1#4, s)) ∧
    (15 < name.length → hostEncode name text na ta oa s = .next (.failed 2#4, s)) ∧
    (1 ≤ name.length → name.length ≤ 15 → text.length = 0 →
      hostEncode name text na ta oa s = .next (.failed 1#4, s))

/-- 44_host_framer.md R210 and R211 (the spec's own inference from R202 and R173): how many packets, how long their chunks,
and how many bytes in all. -/
def Obligations.SegmentationAndEncodedSize : Prop :=
  ∀ name text : List Byte, 1 ≤ name.length → name.length ≤ 15 → 1 ≤ text.length →
    (textChunks text).length = (text.length + 30) / 31 ∧
    (∀ k c, (textChunks text)[k]? = some c →
      c.length = if k + 1 < (text.length + 30) / 31 then 31 else text.length - 31 * ((text.length + 30) / 31 - 1)) ∧
    (textChunks text).flatten = text ∧
    ∀ (na ta oa : Nat) (s s' : State) (out : List Byte), s.memSize ≤ 2 ^ 32 →
      hostEncode name text na ta oa s = .next (.returned out, s') →
        out.length = text.length + (text.length + 30) / 31 * (2 + name.length)

/-- 44_host_framer.md R213 (the spec's own inference from R204): HOST_DECODE accepts every concatenation of well-formed
packets of one name. That the buffer is shorter than 2^32 bytes, so that `SRC_LEN` can hold its length, is the model's
precondition (log entry 11), here and below. -/
def Obligations.HostDecodeAcceptsPacketsOfOneName : Prop :=
  ∀ (packets : List (List Byte)) (name : List Byte) (ba : Nat) (s : State), s.memSize ≤ 2 ^ 32 →
    packets ≠ [] → (∀ p ∈ packets, packetWf p = true ∧ packetName p = name) → packets.flatten.length < 2 ^ 32 →
    ba + packets.flatten.length ≤ s.memSize → s.mem.holds ba packets.flatten →
    ∃ s', hostDecode ba packets.flatten.length s = .next (.returned (name, packets.flatMap packetChunk), s')

/-- 44_host_framer.md R209 (the spec's own inference from R202, R204 and R178): HOST_DECODE of what HOST_ENCODE returns gives
the name and the text back, where HOST_ENCODE left it and wherever else the host places it. -/
def Obligations.HostRoundTrip : Prop :=
  ∀ (name text : List Byte) (na ta oa : Nat) (s : State), s.memSize ≤ 2 ^ 32 → encodePre name text na ta oa s = true →
    1 ≤ name.length → name.length ≤ 15 → 1 ≤ text.length →
    ∃ (out : List Byte) (s' : State), hostEncode name text na ta oa s = .next (.returned out, s') ∧
      (∃ u, hostDecode oa out.length s' = .next (.returned (name, text), u)) ∧
      ∀ (v : State) (ba : Nat), v.memSize ≤ 2 ^ 32 → ba + out.length ≤ v.memSize → v.mem.holds ba out →
        ∃ u, hostDecode ba out.length v = .next (.returned (name, text), u)

/-- 44_host_framer.md R206: no command is issued, so nothing changes. -/
def Obligations.EmptyBufferFails : Prop :=
  ∀ (ba : Nat) (s : State), hostDecode ba 0 s = .next (.failed 9#4, s)

/-- 44_host_framer.md R205: after packets of one name, a well-formed packet of another name. -/
def Obligations.OtherNameIsInconsistentSender : Prop :=
  ∀ (packets : List (List Byte)) (name q rest : List Byte) (ba : Nat) (s : State), s.memSize ≤ 2 ^ 32 →
    packets ≠ [] → (∀ p ∈ packets, packetWf p = true ∧ packetName p = name) → packetWf q = true → packetName q ≠ name →
    (packets.flatten ++ q ++ rest).length < 2 ^ 32 → ba + (packets.flatten ++ q ++ rest).length ≤ s.memSize →
    s.mem.holds ba (packets.flatten ++ q ++ rest) →
    ∃ s', hostDecode ba (packets.flatten ++ q ++ rest).length s = .next (.failed 8#4, s')

/-- 44_host_framer.md R207 (the spec's own inference from R204 and R175): after packets of one name, the error PKT_DIS raises
on what follows is the result. -/
def Obligations.FirstFailingPacketDecides : Prop :=
  ∀ (packets : List (List Byte)) (name rest : List Byte) (ba : Nat) (s t : State), s.memSize ≤ 2 ^ 32 →
    (∀ p ∈ packets, packetWf p = true ∧ packetName p = name) → 1 ≤ rest.length →
    (packets.flatten ++ rest).length < 2 ^ 32 → ba + (packets.flatten ++ rest).length ≤ s.memSize →
    s.mem.holds ba (packets.flatten ++ rest) →
    exec .pktDis { s with
      srcAddr := BitVec.ofNat 32 (ba + packets.flatten.length), srcLen := BitVec.ofNat 32 rest.length } = .next t →
    t.err ≠ 0#4 →
    ∃ s', hostDecode ba (packets.flatten ++ rest).length s = .next (.failed t.err, s')
end

