-- ==== Sys2Proof/Laws/State.lean ====
section
/-! SUPPORT. The small lemmas of the updates of `State`: one per field per update, true by `rfl`. -/

namespace Sys2Proof.Machine

section updates

variable (s : State)

@[simp] theorem State.withStatus_status (e : ErrCode) : (s.withStatus e).status = statusOf e := rfl
@[simp] theorem State.withStatus_crcStart (e : ErrCode) : (s.withStatus e).crcStart = s.crcStart := rfl
@[simp] theorem State.withStatus_crcBits (e : ErrCode) : (s.withStatus e).crcBits = s.crcBits := rfl
@[simp] theorem State.withStatus_crcValueLo (e : ErrCode) : (s.withStatus e).crcValueLo = s.crcValueLo := rfl
@[simp] theorem State.withStatus_crcValueHi (e : ErrCode) : (s.withStatus e).crcValueHi = s.crcValueHi := rfl
@[simp] theorem State.withStatus_crcResult (e : ErrCode) : (s.withStatus e).crcResult = s.crcResult := rfl
@[simp] theorem State.withStatus_srcAddr (e : ErrCode) : (s.withStatus e).srcAddr = s.srcAddr := rfl
@[simp] theorem State.withStatus_srcLen (e : ErrCode) : (s.withStatus e).srcLen = s.srcLen := rfl
@[simp] theorem State.withStatus_nameAddr (e : ErrCode) : (s.withStatus e).nameAddr = s.nameAddr := rfl
@[simp] theorem State.withStatus_nameLen (e : ErrCode) : (s.withStatus e).nameLen = s.nameLen := rfl
@[simp] theorem State.withStatus_msgAddr (e : ErrCode) : (s.withStatus e).msgAddr = s.msgAddr := rfl
@[simp] theorem State.withStatus_msgLen (e : ErrCode) : (s.withStatus e).msgLen = s.msgLen := rfl
@[simp] theorem State.withStatus_dstAddr (e : ErrCode) : (s.withStatus e).dstAddr = s.dstAddr := rfl
@[simp] theorem State.withStatus_hdr (e : ErrCode) : (s.withStatus e).hdr = s.hdr := rfl
@[simp] theorem State.withStatus_resSize (e : ErrCode) : (s.withStatus e).resSize = s.resSize := rfl
@[simp] theorem State.withStatus_resNameAddr (e : ErrCode) : (s.withStatus e).resNameAddr = s.resNameAddr := rfl
@[simp] theorem State.withStatus_resMsgAddr (e : ErrCode) : (s.withStatus e).resMsgAddr = s.resMsgAddr := rfl
@[simp] theorem State.withStatus_resMsgLen (e : ErrCode) : (s.withStatus e).resMsgLen = s.resMsgLen := rfl
@[simp] theorem State.withStatus_memSize (e : ErrCode) : (s.withStatus e).memSize = s.memSize := rfl
@[simp] theorem State.withStatus_mem (e : ErrCode) : (s.withStatus e).mem = s.mem := rfl
@[simp] theorem State.withStatus_pending (e : ErrCode) : (s.withStatus e).pending = s.pending := rfl
@[simp] theorem State.withStatus_reads (e : ErrCode) : (s.withStatus e).reads = s.reads := rfl

@[simp] theorem State.withCrcResult_status (c : Nibble) : (s.withCrcResult c).status = s.status := rfl
@[simp] theorem State.withCrcResult_crcStart (c : Nibble) : (s.withCrcResult c).crcStart = s.crcStart := rfl
@[simp] theorem State.withCrcResult_crcBits (c : Nibble) : (s.withCrcResult c).crcBits = s.crcBits := rfl
@[simp] theorem State.withCrcResult_crcValueLo (c : Nibble) : (s.withCrcResult c).crcValueLo = s.crcValueLo := rfl
@[simp] theorem State.withCrcResult_crcValueHi (c : Nibble) : (s.withCrcResult c).crcValueHi = s.crcValueHi := rfl
@[simp] theorem State.withCrcResult_crcResult (c : Nibble) : (s.withCrcResult c).crcResult = c := rfl
@[simp] theorem State.withCrcResult_srcAddr (c : Nibble) : (s.withCrcResult c).srcAddr = s.srcAddr := rfl
@[simp] theorem State.withCrcResult_srcLen (c : Nibble) : (s.withCrcResult c).srcLen = s.srcLen := rfl
@[simp] theorem State.withCrcResult_nameAddr (c : Nibble) : (s.withCrcResult c).nameAddr = s.nameAddr := rfl
@[simp] theorem State.withCrcResult_nameLen (c : Nibble) : (s.withCrcResult c).nameLen = s.nameLen := rfl
@[simp] theorem State.withCrcResult_msgAddr (c : Nibble) : (s.withCrcResult c).msgAddr = s.msgAddr := rfl
@[simp] theorem State.withCrcResult_msgLen (c : Nibble) : (s.withCrcResult c).msgLen = s.msgLen := rfl
@[simp] theorem State.withCrcResult_dstAddr (c : Nibble) : (s.withCrcResult c).dstAddr = s.dstAddr := rfl
@[simp] theorem State.withCrcResult_hdr (c : Nibble) : (s.withCrcResult c).hdr = s.hdr := rfl
@[simp] theorem State.withCrcResult_resSize (c : Nibble) : (s.withCrcResult c).resSize = s.resSize := rfl
@[simp] theorem State.withCrcResult_resNameAddr (c : Nibble) : (s.withCrcResult c).resNameAddr = s.resNameAddr := rfl
@[simp] theorem State.withCrcResult_resMsgAddr (c : Nibble) : (s.withCrcResult c).resMsgAddr = s.resMsgAddr := rfl
@[simp] theorem State.withCrcResult_resMsgLen (c : Nibble) : (s.withCrcResult c).resMsgLen = s.resMsgLen := rfl
@[simp] theorem State.withCrcResult_memSize (c : Nibble) : (s.withCrcResult c).memSize = s.memSize := rfl
@[simp] theorem State.withCrcResult_mem (c : Nibble) : (s.withCrcResult c).mem = s.mem := rfl
@[simp] theorem State.withCrcResult_pending (c : Nibble) : (s.withCrcResult c).pending = s.pending := rfl
@[simp] theorem State.withCrcResult_reads (c : Nibble) : (s.withCrcResult c).reads = s.reads := rfl

@[simp] theorem State.withHdr_status (h : Header) : (s.withHdr h).status = s.status := rfl
@[simp] theorem State.withHdr_crcStart (h : Header) : (s.withHdr h).crcStart = s.crcStart := rfl
@[simp] theorem State.withHdr_crcBits (h : Header) : (s.withHdr h).crcBits = s.crcBits := rfl
@[simp] theorem State.withHdr_crcValueLo (h : Header) : (s.withHdr h).crcValueLo = s.crcValueLo := rfl
@[simp] theorem State.withHdr_crcValueHi (h : Header) : (s.withHdr h).crcValueHi = s.crcValueHi := rfl
@[simp] theorem State.withHdr_crcResult (h : Header) : (s.withHdr h).crcResult = s.crcResult := rfl
@[simp] theorem State.withHdr_srcAddr (h : Header) : (s.withHdr h).srcAddr = s.srcAddr := rfl
@[simp] theorem State.withHdr_srcLen (h : Header) : (s.withHdr h).srcLen = s.srcLen := rfl
@[simp] theorem State.withHdr_nameAddr (h : Header) : (s.withHdr h).nameAddr = s.nameAddr := rfl
@[simp] theorem State.withHdr_nameLen (h : Header) : (s.withHdr h).nameLen = s.nameLen := rfl
@[simp] theorem State.withHdr_msgAddr (h : Header) : (s.withHdr h).msgAddr = s.msgAddr := rfl
@[simp] theorem State.withHdr_msgLen (h : Header) : (s.withHdr h).msgLen = s.msgLen := rfl
@[simp] theorem State.withHdr_dstAddr (h : Header) : (s.withHdr h).dstAddr = s.dstAddr := rfl
@[simp] theorem State.withHdr_hdr (h : Header) : (s.withHdr h).hdr = h := rfl
@[simp] theorem State.withHdr_resSize (h : Header) : (s.withHdr h).resSize = s.resSize := rfl
@[simp] theorem State.withHdr_resNameAddr (h : Header) : (s.withHdr h).resNameAddr = s.resNameAddr := rfl
@[simp] theorem State.withHdr_resMsgAddr (h : Header) : (s.withHdr h).resMsgAddr = s.resMsgAddr := rfl
@[simp] theorem State.withHdr_resMsgLen (h : Header) : (s.withHdr h).resMsgLen = s.resMsgLen := rfl
@[simp] theorem State.withHdr_memSize (h : Header) : (s.withHdr h).memSize = s.memSize := rfl
@[simp] theorem State.withHdr_mem (h : Header) : (s.withHdr h).mem = s.mem := rfl
@[simp] theorem State.withHdr_pending (h : Header) : (s.withHdr h).pending = s.pending := rfl
@[simp] theorem State.withHdr_reads (h : Header) : (s.withHdr h).reads = s.reads := rfl

@[simp] theorem State.withResults_status (z n m l : Nat) : (s.withResults z n m l).status = s.status := rfl
@[simp] theorem State.withResults_crcStart (z n m l : Nat) : (s.withResults z n m l).crcStart = s.crcStart := rfl
@[simp] theorem State.withResults_crcBits (z n m l : Nat) : (s.withResults z n m l).crcBits = s.crcBits := rfl
@[simp] theorem State.withResults_crcValueLo (z n m l : Nat) : (s.withResults z n m l).crcValueLo = s.crcValueLo := rfl
@[simp] theorem State.withResults_crcValueHi (z n m l : Nat) : (s.withResults z n m l).crcValueHi = s.crcValueHi := rfl
@[simp] theorem State.withResults_crcResult (z n m l : Nat) : (s.withResults z n m l).crcResult = s.crcResult := rfl
@[simp] theorem State.withResults_srcAddr (z n m l : Nat) : (s.withResults z n m l).srcAddr = s.srcAddr := rfl
@[simp] theorem State.withResults_srcLen (z n m l : Nat) : (s.withResults z n m l).srcLen = s.srcLen := rfl
@[simp] theorem State.withResults_nameAddr (z n m l : Nat) : (s.withResults z n m l).nameAddr = s.nameAddr := rfl
@[simp] theorem State.withResults_nameLen (z n m l : Nat) : (s.withResults z n m l).nameLen = s.nameLen := rfl
@[simp] theorem State.withResults_msgAddr (z n m l : Nat) : (s.withResults z n m l).msgAddr = s.msgAddr := rfl
@[simp] theorem State.withResults_msgLen (z n m l : Nat) : (s.withResults z n m l).msgLen = s.msgLen := rfl
@[simp] theorem State.withResults_dstAddr (z n m l : Nat) : (s.withResults z n m l).dstAddr = s.dstAddr := rfl
@[simp] theorem State.withResults_hdr (z n m l : Nat) : (s.withResults z n m l).hdr = s.hdr := rfl
@[simp] theorem State.withResults_resSize (z n m l : Nat) : (s.withResults z n m l).resSize = BitVec.ofNat 32 z := rfl
@[simp] theorem State.withResults_resNameAddr (z n m l : Nat) : (s.withResults z n m l).resNameAddr = BitVec.ofNat 32 n := rfl
@[simp] theorem State.withResults_resMsgAddr (z n m l : Nat) : (s.withResults z n m l).resMsgAddr = BitVec.ofNat 32 m := rfl
@[simp] theorem State.withResults_resMsgLen (z n m l : Nat) : (s.withResults z n m l).resMsgLen = BitVec.ofNat 32 l := rfl
@[simp] theorem State.withResults_memSize (z n m l : Nat) : (s.withResults z n m l).memSize = s.memSize := rfl
@[simp] theorem State.withResults_mem (z n m l : Nat) : (s.withResults z n m l).mem = s.mem := rfl
@[simp] theorem State.withResults_pending (z n m l : Nat) : (s.withResults z n m l).pending = s.pending := rfl
@[simp] theorem State.withResults_reads (z n m l : Nat) : (s.withResults z n m l).reads = s.reads := rfl

@[simp] theorem State.withMem_status (m : Memory) : (s.withMem m).status = s.status := rfl
@[simp] theorem State.withMem_crcStart (m : Memory) : (s.withMem m).crcStart = s.crcStart := rfl
@[simp] theorem State.withMem_crcBits (m : Memory) : (s.withMem m).crcBits = s.crcBits := rfl
@[simp] theorem State.withMem_crcValueLo (m : Memory) : (s.withMem m).crcValueLo = s.crcValueLo := rfl
@[simp] theorem State.withMem_crcValueHi (m : Memory) : (s.withMem m).crcValueHi = s.crcValueHi := rfl
@[simp] theorem State.withMem_crcResult (m : Memory) : (s.withMem m).crcResult = s.crcResult := rfl
@[simp] theorem State.withMem_srcAddr (m : Memory) : (s.withMem m).srcAddr = s.srcAddr := rfl
@[simp] theorem State.withMem_srcLen (m : Memory) : (s.withMem m).srcLen = s.srcLen := rfl
@[simp] theorem State.withMem_nameAddr (m : Memory) : (s.withMem m).nameAddr = s.nameAddr := rfl
@[simp] theorem State.withMem_nameLen (m : Memory) : (s.withMem m).nameLen = s.nameLen := rfl
@[simp] theorem State.withMem_msgAddr (m : Memory) : (s.withMem m).msgAddr = s.msgAddr := rfl
@[simp] theorem State.withMem_msgLen (m : Memory) : (s.withMem m).msgLen = s.msgLen := rfl
@[simp] theorem State.withMem_dstAddr (m : Memory) : (s.withMem m).dstAddr = s.dstAddr := rfl
@[simp] theorem State.withMem_hdr (m : Memory) : (s.withMem m).hdr = s.hdr := rfl
@[simp] theorem State.withMem_resSize (m : Memory) : (s.withMem m).resSize = s.resSize := rfl
@[simp] theorem State.withMem_resNameAddr (m : Memory) : (s.withMem m).resNameAddr = s.resNameAddr := rfl
@[simp] theorem State.withMem_resMsgAddr (m : Memory) : (s.withMem m).resMsgAddr = s.resMsgAddr := rfl
@[simp] theorem State.withMem_resMsgLen (m : Memory) : (s.withMem m).resMsgLen = s.resMsgLen := rfl
@[simp] theorem State.withMem_memSize (m : Memory) : (s.withMem m).memSize = s.memSize := rfl
@[simp] theorem State.withMem_mem (m : Memory) : (s.withMem m).mem = m := rfl
@[simp] theorem State.withMem_pending (m : Memory) : (s.withMem m).pending = s.pending := rfl
@[simp] theorem State.withMem_reads (m : Memory) : (s.withMem m).reads = s.reads := rfl

@[simp] theorem State.recorded_status (v : ReadValue) : (s.recorded v).status = s.status := rfl
@[simp] theorem State.recorded_crcStart (v : ReadValue) : (s.recorded v).crcStart = s.crcStart := rfl
@[simp] theorem State.recorded_crcBits (v : ReadValue) : (s.recorded v).crcBits = s.crcBits := rfl
@[simp] theorem State.recorded_crcValueLo (v : ReadValue) : (s.recorded v).crcValueLo = s.crcValueLo := rfl
@[simp] theorem State.recorded_crcValueHi (v : ReadValue) : (s.recorded v).crcValueHi = s.crcValueHi := rfl
@[simp] theorem State.recorded_crcResult (v : ReadValue) : (s.recorded v).crcResult = s.crcResult := rfl
@[simp] theorem State.recorded_srcAddr (v : ReadValue) : (s.recorded v).srcAddr = s.srcAddr := rfl
@[simp] theorem State.recorded_srcLen (v : ReadValue) : (s.recorded v).srcLen = s.srcLen := rfl
@[simp] theorem State.recorded_nameAddr (v : ReadValue) : (s.recorded v).nameAddr = s.nameAddr := rfl
@[simp] theorem State.recorded_nameLen (v : ReadValue) : (s.recorded v).nameLen = s.nameLen := rfl
@[simp] theorem State.recorded_msgAddr (v : ReadValue) : (s.recorded v).msgAddr = s.msgAddr := rfl
@[simp] theorem State.recorded_msgLen (v : ReadValue) : (s.recorded v).msgLen = s.msgLen := rfl
@[simp] theorem State.recorded_dstAddr (v : ReadValue) : (s.recorded v).dstAddr = s.dstAddr := rfl
@[simp] theorem State.recorded_hdr (v : ReadValue) : (s.recorded v).hdr = s.hdr := rfl
@[simp] theorem State.recorded_resSize (v : ReadValue) : (s.recorded v).resSize = s.resSize := rfl
@[simp] theorem State.recorded_resNameAddr (v : ReadValue) : (s.recorded v).resNameAddr = s.resNameAddr := rfl
@[simp] theorem State.recorded_resMsgAddr (v : ReadValue) : (s.recorded v).resMsgAddr = s.resMsgAddr := rfl
@[simp] theorem State.recorded_resMsgLen (v : ReadValue) : (s.recorded v).resMsgLen = s.resMsgLen := rfl
@[simp] theorem State.recorded_memSize (v : ReadValue) : (s.recorded v).memSize = s.memSize := rfl
@[simp] theorem State.recorded_mem (v : ReadValue) : (s.recorded v).mem = s.mem := rfl
@[simp] theorem State.recorded_pending (v : ReadValue) : (s.recorded v).pending = s.pending := rfl
@[simp] theorem State.recorded_reads (v : ReadValue) : (s.recorded v).reads = s.reads ++ [v] := rfl

@[simp] theorem State.withPending_status (es : List HostEvent) : (s.withPending es).status = s.status := rfl
@[simp] theorem State.withPending_crcStart (es : List HostEvent) : (s.withPending es).crcStart = s.crcStart := rfl
@[simp] theorem State.withPending_crcBits (es : List HostEvent) : (s.withPending es).crcBits = s.crcBits := rfl
@[simp] theorem State.withPending_crcValueLo (es : List HostEvent) : (s.withPending es).crcValueLo = s.crcValueLo := rfl
@[simp] theorem State.withPending_crcValueHi (es : List HostEvent) : (s.withPending es).crcValueHi = s.crcValueHi := rfl
@[simp] theorem State.withPending_crcResult (es : List HostEvent) : (s.withPending es).crcResult = s.crcResult := rfl
@[simp] theorem State.withPending_srcAddr (es : List HostEvent) : (s.withPending es).srcAddr = s.srcAddr := rfl
@[simp] theorem State.withPending_srcLen (es : List HostEvent) : (s.withPending es).srcLen = s.srcLen := rfl
@[simp] theorem State.withPending_nameAddr (es : List HostEvent) : (s.withPending es).nameAddr = s.nameAddr := rfl
@[simp] theorem State.withPending_nameLen (es : List HostEvent) : (s.withPending es).nameLen = s.nameLen := rfl
@[simp] theorem State.withPending_msgAddr (es : List HostEvent) : (s.withPending es).msgAddr = s.msgAddr := rfl
@[simp] theorem State.withPending_msgLen (es : List HostEvent) : (s.withPending es).msgLen = s.msgLen := rfl
@[simp] theorem State.withPending_dstAddr (es : List HostEvent) : (s.withPending es).dstAddr = s.dstAddr := rfl
@[simp] theorem State.withPending_hdr (es : List HostEvent) : (s.withPending es).hdr = s.hdr := rfl
@[simp] theorem State.withPending_resSize (es : List HostEvent) : (s.withPending es).resSize = s.resSize := rfl
@[simp] theorem State.withPending_resNameAddr (es : List HostEvent) : (s.withPending es).resNameAddr = s.resNameAddr := rfl
@[simp] theorem State.withPending_resMsgAddr (es : List HostEvent) : (s.withPending es).resMsgAddr = s.resMsgAddr := rfl
@[simp] theorem State.withPending_resMsgLen (es : List HostEvent) : (s.withPending es).resMsgLen = s.resMsgLen := rfl
@[simp] theorem State.withPending_memSize (es : List HostEvent) : (s.withPending es).memSize = s.memSize := rfl
@[simp] theorem State.withPending_mem (es : List HostEvent) : (s.withPending es).mem = s.mem := rfl
@[simp] theorem State.withPending_pending (es : List HostEvent) : (s.withPending es).pending = es := rfl
@[simp] theorem State.withPending_reads (es : List HostEvent) : (s.withPending es).reads = s.reads := rfl

end updates

section afterReset

variable (n : Nat) (p : List HostEvent) (q : List ReadValue)

@[simp] theorem State.afterReset_status : (State.afterReset n p q).status = 0#5 := rfl
@[simp] theorem State.afterReset_crcStart : (State.afterReset n p q).crcStart = 0#4 := rfl
@[simp] theorem State.afterReset_crcBits : (State.afterReset n p q).crcBits = 0#7 := rfl
@[simp] theorem State.afterReset_crcValueLo : (State.afterReset n p q).crcValueLo = 0#32 := rfl
@[simp] theorem State.afterReset_crcValueHi : (State.afterReset n p q).crcValueHi = 0#32 := rfl
@[simp] theorem State.afterReset_crcResult : (State.afterReset n p q).crcResult = 0#4 := rfl
@[simp] theorem State.afterReset_srcAddr : (State.afterReset n p q).srcAddr = 0#32 := rfl
@[simp] theorem State.afterReset_srcLen : (State.afterReset n p q).srcLen = 0#32 := rfl
@[simp] theorem State.afterReset_nameAddr : (State.afterReset n p q).nameAddr = 0#32 := rfl
@[simp] theorem State.afterReset_nameLen : (State.afterReset n p q).nameLen = 0#32 := rfl
@[simp] theorem State.afterReset_msgAddr : (State.afterReset n p q).msgAddr = 0#32 := rfl
@[simp] theorem State.afterReset_msgLen : (State.afterReset n p q).msgLen = 0#32 := rfl
@[simp] theorem State.afterReset_dstAddr : (State.afterReset n p q).dstAddr = 0#32 := rfl
@[simp] theorem State.afterReset_hdr : (State.afterReset n p q).hdr = 0#16 := rfl
@[simp] theorem State.afterReset_resSize : (State.afterReset n p q).resSize = 0#32 := rfl
@[simp] theorem State.afterReset_resNameAddr : (State.afterReset n p q).resNameAddr = 0#32 := rfl
@[simp] theorem State.afterReset_resMsgAddr : (State.afterReset n p q).resMsgAddr = 0#32 := rfl
@[simp] theorem State.afterReset_resMsgLen : (State.afterReset n p q).resMsgLen = 0#32 := rfl
@[simp] theorem State.afterReset_memSize : (State.afterReset n p q).memSize = n := rfl
@[simp] theorem State.afterReset_mem : (State.afterReset n p q).mem = [] := rfl
@[simp] theorem State.afterReset_pending : (State.afterReset n p q).pending = p := rfl
@[simp] theorem State.afterReset_reads : (State.afterReset n p q).reads = q := rfl

end afterReset

end Sys2Proof.Machine
end

