-- ==== Sys2Proof/Laws/Access.lean ====
section
/-! SUPPORT. What the host's accesses do, one lemma per kind, and one step after another. -/

namespace Sys2Proof.Machine

/-! ## Slots -/

theorem slotAt_regOffset (r : Reg) : slotAt (regOffset r) = some (.named r) := by cases r <;> decide

theorem eq_regOffset_of_slotAt {off : Nat} {r : Reg} (h : slotAt off = some (.named r)) : off = regOffset r := by
  unfold slotAt at h
  split_ifs at h
  split at h
  · rename_i r' hr
    simp only [Option.some.injEq, Slot.named.injEq] at h
    subst h
    have := List.find?_some hr
    simpa using (beq_iff_eq.1 this).symm
  · simp at h

theorem slotAt_eq_none (off : Nat) : slotAt off = none ↔ ¬(off % 4 = 0 ∧ off ≤ 0x7C) := by
  unfold slotAt
  split_ifs with h
  · simp only [h, and_self, not_true, iff_false]; split <;> simp
  · simp [h]

theorem slotAt_eq_reserved (off : Nat) :
    slotAt off = some .reserved ↔ off % 4 = 0 ∧ 0x54 ≤ off ∧ off ≤ 0x7C := by
  by_cases h : off % 4 = 0 ∧ off ≤ 0x7C
  · obtain ⟨k, rfl⟩ : ∃ k, off = 4 * k := ⟨off / 4, by omega⟩
    obtain ⟨-, h⟩ := h
    have hk : k < 32 := by omega
    have key : ∀ j : Fin 32, slotAt (4 * j) = some .reserved ↔ 21 ≤ j.val := by decide
    rw [show slotAt (4 * k) = some .reserved ↔ 21 ≤ k from key ⟨k, hk⟩]
    omega
  · rw [(slotAt_eq_none off).2 h]
    simp only [reduceCtorEq, false_iff]
    omega

/-! ## Accesses -/

/-- A write of `CMD` is the command of the word (40_command.md R100). -/
theorem issueAccess_cmd (v : Word) (s : State) :
    issueAccess (.regWrite (regOffset .cmd) v) s = exec (decodeWord v) s := rfl

theorem issueAccess_regWrite (r : Reg) (hr : r ≠ .cmd) (v : Word) (s : State) :
    issueAccess (.regWrite (regOffset r) v) s = .next (regWrite r v s) := by
  cases r <;> first | rfl | exact absurd rfl hr

theorem issueAccess_regRead (r : Reg) (s : State) :
    issueAccess (.regRead (regOffset r)) s = .next (s.recorded (.word (regRead r s))) := by
  cases r <;> rfl

theorem issueAccess_reserved {off : Nat} (h : slotAt off = some .reserved) (v : Word) (s : State) :
    issueAccess (.regWrite off v) s = .next s ∧ issueAccess (.regRead off) s = .next (s.recorded (.word 0#32)) := by
  constructor <;> simp [issueAccess, h, slotRead]

theorem issueAccess_offSlot {off : Nat} (h : slotAt off = none) (v : Word) (s : State) :
    issueAccess (.regWrite off v) s = .refused .hostAccess ∧ issueAccess (.regRead off) s = .refused .hostAccess := by
  constructor <;> simp [issueAccess, h]

theorem issueAccess_memWrite {x : Nat} {s : State} (h : x < s.memSize) (b : Byte) :
    issueAccess (.memWrite x b) s = .next (s.withMem (s.mem.write x b)) := by
  simp [issueAccess, h]

theorem issueAccess_memRead {x : Nat} {s : State} (h : x < s.memSize) {b : Byte} (hb : s.mem.read x = some b) :
    issueAccess (.memRead x) s = .next (s.recorded (.byte b)) := by
  simp [issueAccess, h, hb]

/-- Everything one access can do: a command, one register, one byte of MEM, or a value for the host. -/
theorem issueAccess_cases {a : HostAccess} {s t : State} (h : issueAccess a s = .next t) :
    (∃ v, a = .regWrite (regOffset .cmd) v ∧ exec (decodeWord v) s = .next t) ∨
    (∃ r v, r ≠ .cmd ∧ a = .regWrite (regOffset r) v ∧ t = regWrite r v s) ∨
    (∃ off v, slotAt off = some .reserved ∧ a = .regWrite off v ∧ t = s) ∨
    (∃ x b, x < s.memSize ∧ a = .memWrite x b ∧ t = s.withMem (s.mem.write x b)) ∨
    ∃ v, t = s.recorded v := by
  unfold issueAccess at h
  cases a with
  | regWrite off v =>
    simp only at h
    split at h
    · simp at h
    · rename_i hs; simp only [Host.Outcome.next.injEq] at h
      exact .inr (.inr (.inl ⟨off, v, hs, rfl, h.symm⟩))
    · rename_i hs; obtain rfl := eq_regOffset_of_slotAt hs; exact .inl ⟨v, rfl, h⟩
    · rename_i r hr hs
      obtain rfl := eq_regOffset_of_slotAt hs
      simp only [Host.Outcome.next.injEq] at h
      exact .inr (.inl ⟨r, v, fun e => hr (by rw [e]), rfl, h.symm⟩)
  | regRead off =>
    simp only at h
    split at h <;> simp only [Host.Outcome.next.injEq, reduceCtorEq] at h
    exact .inr (.inr (.inr (.inr ⟨_, h.symm⟩)))
  | memWrite x b =>
    simp only at h
    split at h <;> simp only [Host.Outcome.next.injEq, reduceCtorEq] at h
    rename_i hx
    exact .inr (.inr (.inr (.inl ⟨x, b, hx, rfl, h.symm⟩)))
  | memRead x =>
    simp only at h
    split at h
    · split at h <;> simp only [Host.Outcome.next.injEq, reduceCtorEq] at h
      exact .inr (.inr (.inr (.inr ⟨_, h.symm⟩)))
    · simp at h
  | regOtherWidth off => simp at h
  | memOtherWidth x => simp at h

/-! ## Steps -/

theorem step_of_pending {s : State} {e : HostEvent} {es : List HostEvent} (h : s.pending = e :: es) :
    step s = issueEvent e (s.withPending es) := by rw [step, h]

/-- Everything one step can do. -/
theorem step_cases {s t : State} (h : step s = .next t) :
    (s.pending = [] ∧ t = s) ∨
    (∃ es, s.pending = .reset :: es ∧ t = resetBlock (s.withPending es)) ∨
    ∃ a es, s.pending = .access a :: es ∧ issueAccess a (s.withPending es) = .next t := by
  unfold step at h
  split at h
  · rename_i hp; exact .inl ⟨hp, by simpa using h.symm⟩
  · rename_i e es hp
    cases e with
    | reset => exact .inr (.inl ⟨es, hp, by simpa [issueEvent] using h.symm⟩)
    | access a => exact .inr (.inr ⟨a, es, hp, h⟩)

theorem issueAll_cons (a : HostAccess) (as : List HostAccess) (s : State) {t : State} (h : issueAccess a s = .next t) :
    issueAll (a :: as) s = issueAll as t := by rw [issueAll, h]

theorem run_succ (M : Host.Core) (k : Nat) (s : M.State) :
    M.run (k + 1) s = match M.step s with
      | .next s' => M.run k s'
      | .fault r => .fault r
      | .refused r => .refused r := rfl

end Sys2Proof.Machine
end

