-- ==== Sys2Proof/Laws/Memory.lean ====
section
/-! SUPPORT. What the memory operations do: reads after writes, and the canonical form they keep. -/

namespace Sys2Proof.Machine

/-! ## One byte -/

@[simp] theorem Memory.read_nil (a : Nat) : Memory.read [] a = none := rfl

theorem Memory.read_cons (k : Nat) (v : Byte) (m : Memory) (a : Nat) :
    Memory.read ((k, v) :: m) a = if a = k then some v else Memory.read m a := rfl

/-- A write changes the byte at its address and no other. -/
theorem Memory.read_write (m : Memory) (a : Nat) (b : Byte) (x : Nat) :
    (m.write a b).read x = if x = a then some b else m.read x := by
  induction m with
  | nil => rfl
  | cons c m ih =>
    obtain ⟨k, v⟩ := c
    rw [Memory.write]
    split_ifs <;> simp only [Memory.read_cons, ih] <;> split_ifs <;> simp_all

@[simp] theorem Memory.read_write_same (m : Memory) (a : Nat) (b : Byte) : (m.write a b).read a = some b := by
  simp [Memory.read_write]

theorem Memory.read_write_of_ne (m : Memory) {a x : Nat} (b : Byte) (h : x ≠ a) : (m.write a b).read x = m.read x := by
  simp [Memory.read_write, h]

/-- Writing the same byte twice is writing it once. -/
theorem Memory.write_write_same (m : Memory) (a : Nat) (b : Byte) : (m.write a b).write a b = m.write a b := by
  induction m with
  | nil => simp [Memory.write]
  | cons c m ih =>
    obtain ⟨k, v⟩ := c
    simp only [Memory.write]
    split_ifs with h1 h2
    · simp [Memory.write]
    · simp [Memory.write]
    · simp [Memory.write, h1, h2, ih]

/-! ## The canonical form -/

/-- A property of addresses that all entries have is kept by a write to an address that has it. -/
theorem Memory.all_write (p : Nat → Bool) (m : Memory) (a : Nat) (b : Byte) (ha : p a = true)
    (h : m.all (fun c => p c.1) = true) : (m.write a b).all (fun c => p c.1) = true := by
  induction m with
  | nil => simp [Memory.write, ha]
  | cons c m ih =>
    obtain ⟨k, v⟩ := c
    simp only [List.all_cons, Bool.and_eq_true] at h
    rw [Memory.write]
    split_ifs
    · simp only [List.all_cons, Bool.and_eq_true]; exact ⟨ha, h⟩
    · simp only [List.all_cons, Bool.and_eq_true]; exact ⟨ha, h.2⟩
    · simp only [List.all_cons, Bool.and_eq_true]; exact ⟨h.1, ih h.2⟩

theorem Memory.wf_write (m : Memory) (a : Nat) (b : Byte) (h : m.wf = true) : (m.write a b).wf = true := by
  induction m with
  | nil => simp [Memory.write, Memory.wf]
  | cons c m ih =>
    obtain ⟨k, v⟩ := c
    simp only [Memory.wf, Bool.and_eq_true] at h
    rw [Memory.write]
    split_ifs with h1 h2
    · simp only [Memory.wf, Bool.and_eq_true, List.all_cons, decide_eq_true_eq]
      refine ⟨⟨h1, ?_⟩, h⟩
      simp only [List.all_eq_true, decide_eq_true_eq] at h ⊢
      exact fun c hc => lt_trans h1 (h.1 c hc)
    · subst h2; simpa [Memory.wf] using h
    · simp only [Memory.wf, Bool.and_eq_true]
      exact ⟨Memory.all_write (fun x => decide (k < x)) m a b (by simp; omega) h.1, ih h.2⟩

theorem Memory.all_writeBytes (p : Nat → Bool) (bs : List Byte) (m : Memory) (a : Nat)
    (ha : ∀ i, i < bs.length → p (a + i) = true) (h : m.all (fun c => p c.1) = true) :
    (m.writeBytes a bs).all (fun c => p c.1) = true := by
  induction bs generalizing m a with
  | nil => exact h
  | cons b bs ih =>
    refine ih _ _ (fun i hi => ?_) (Memory.all_write p m a b (by simpa using ha 0 (by simp)) h)
    have := ha (i + 1) (by simpa using hi)
    rwa [show a + 1 + i = a + (i + 1) by omega]

theorem Memory.wf_writeBytes (bs : List Byte) (m : Memory) (a : Nat) (h : m.wf = true) :
    (m.writeBytes a bs).wf = true := by
  induction bs generalizing m a with
  | nil => exact h
  | cons b bs ih => exact ih _ _ (Memory.wf_write m a b h)

/-! ## Lists of bytes -/

theorem Memory.holds_nil (m : Memory) (a : Nat) : m.holds a [] := fun i h => by simp at h

theorem Memory.holds_cons (m : Memory) (a : Nat) (b : Byte) (bs : List Byte) :
    m.holds a (b :: bs) ↔ m.read a = some b ∧ m.holds (a + 1) bs := by
  constructor
  · intro h
    refine ⟨h 0 (by simp), fun i hi => ?_⟩
    have := h (i + 1) (by simpa using hi)
    rw [show a + 1 + i = a + (i + 1) by omega]
    simpa using this
  · rintro ⟨h0, h⟩ i hi
    cases i with
    | zero => simpa using h0
    | succ i =>
      have := h i (by simpa using hi)
      rw [show a + 1 + i = a + (i + 1) by omega] at this
      simpa using this

theorem Memory.holds_append (m : Memory) (a : Nat) (bs cs : List Byte) :
    m.holds a (bs ++ cs) ↔ m.holds a bs ∧ m.holds (a + bs.length) cs := by
  induction bs generalizing a with
  | nil => simp [Memory.holds_nil]
  | cons b bs ih =>
    rw [List.cons_append, Memory.holds_cons, Memory.holds_cons, ih, and_assoc, List.length_cons,
      show a + 1 + bs.length = a + (bs.length + 1) by omega]

/-- `MemRead` answers exactly the bytes MEM holds. -/
theorem Memory.readBytes_eq_some (m : Memory) (a n : Nat) (bs : List Byte) :
    m.readBytes a n = some bs ↔ bs.length = n ∧ m.holds a bs := by
  induction n generalizing a bs with
  | zero =>
    cases bs with
    | nil => simp [Memory.readBytes, Memory.holds_nil]
    | cons b bs => simp [Memory.readBytes]
  | succ n ih =>
    rw [Memory.readBytes]
    cases bs with
    | nil => split <;> simp; split <;> simp
    | cons b bs =>
      rw [Memory.holds_cons]
      split
      · rename_i h; simp [h]
      · rename_i c h
        have := ih (a + 1) bs
        rw [h, Option.some.injEq, List.length_cons, Nat.add_right_cancel_iff]
        split <;> rename_i h' <;> rw [h'] at this
        · simp only [reduceCtorEq, false_iff] at this ⊢; tauto
        · simp only [Option.some.injEq] at this
          rw [Option.some.injEq, List.cons.injEq, this]; tauto

/-- `MemRead` answers nothing exactly where a byte was never written. -/
theorem Memory.readBytes_eq_none (m : Memory) (a n : Nat) :
    m.readBytes a n = none ↔ ∃ i, i < n ∧ m.read (a + i) = none := by
  induction n generalizing a with
  | zero => simp [Memory.readBytes]
  | succ n ih =>
    rw [Memory.readBytes]
    split
    · rename_i h; simpa using ⟨0, by omega, by simpa using h⟩
    · rename_i c h
      have key : (∃ i, i < n + 1 ∧ m.read (a + i) = none) ↔ ∃ i, i < n ∧ m.read (a + 1 + i) = none := by
        constructor
        · rintro ⟨i, hi, hr⟩
          cases i with
          | zero => simp [h] at hr
          | succ i => exact ⟨i, by omega, by rwa [show a + 1 + i = a + (i + 1) by omega]⟩
        · rintro ⟨i, hi, hr⟩
          exact ⟨i + 1, by omega, by rwa [show a + (i + 1) = a + 1 + i by omega]⟩
      rw [key, ← ih]
      split <;> rename_i h' <;> simp [h']

theorem Memory.readBytes_of_holds {m : Memory} {a : Nat} {bs : List Byte} (h : m.holds a bs) :
    m.readBytes a bs.length = some bs := (Memory.readBytes_eq_some m a bs.length bs).2 ⟨rfl, h⟩

theorem Memory.readBytes_length {m : Memory} {a n : Nat} {bs : List Byte} (h : m.readBytes a n = some bs) :
    bs.length = n := ((Memory.readBytes_eq_some m a n bs).1 h).1

theorem Memory.holds_of_readBytes {m : Memory} {a n : Nat} {bs : List Byte} (h : m.readBytes a n = some bs) :
    m.holds a bs := ((Memory.readBytes_eq_some m a n bs).1 h).2

/-- `MemWrite` changes the bytes of its region and no other. -/
theorem Memory.read_writeBytes (bs : List Byte) (m : Memory) (a x : Nat) :
    (m.writeBytes a bs).read x = if h : a ≤ x ∧ x < a + bs.length then some (bs[x - a]'(by omega)) else m.read x := by
  induction bs generalizing m a with
  | nil => simp only [Memory.writeBytes, List.length_nil]; split_ifs <;> first | omega | rfl
  | cons b bs ih =>
    rw [Memory.writeBytes, ih, Memory.read_write]
    by_cases hx : x = a
    · subst hx; simp
    · by_cases h : a + 1 ≤ x ∧ x < a + 1 + bs.length
      · rw [dif_pos h, dif_pos (by simp only [List.length_cons]; omega)]
        have : x - a = (x - (a + 1)) + 1 := by omega
        simp [this]
      · rw [dif_neg h, dif_neg (by simp only [List.length_cons]; omega), if_neg hx]

theorem Memory.holds_writeBytes (m : Memory) (a : Nat) (bs : List Byte) : (m.writeBytes a bs).holds a bs := by
  intro i hi
  rw [Memory.read_writeBytes, dif_pos (by omega)]
  simp

theorem Memory.sameOutside_writeBytes (m : Memory) (a : Nat) (bs : List Byte) :
    m.sameOutside (m.writeBytes a bs) a bs.length := by
  intro x hx
  rw [Memory.read_writeBytes, dif_neg (by omega)]

/-- Bytes outside the region of a write are held after it as before. -/
theorem Memory.holds_of_sameOutside {m m' : Memory} {a n b : Nat} {bs : List Byte} (h : m.sameOutside m' a n)
    (hd : bs.length = 0 ∨ n = 0 ∨ b + bs.length ≤ a ∨ a + n ≤ b) : m'.holds b bs ↔ m.holds b bs := by
  constructor <;> intro hb i hi <;> have := hb i hi <;> have := h (b + i) (by omega) <;> simp_all

/-- Header byte 0 is the low byte (10_state.md R39). -/
theorem headerOfBytes_low (b0 b1 : Byte) : (b1 ++ b0 : BitVec 16).extractLsb' 0 8 = b0 := by
  ext i hi
  simp only [BitVec.getElem_extractLsb', BitVec.getLsbD_append]
  rw [if_pos (by omega), BitVec.getLsbD_eq_getElem (by omega)]
  simp

/-- Header byte 1 is the high byte (10_state.md R39). -/
theorem headerOfBytes_high (b0 b1 : Byte) : (b1 ++ b0 : BitVec 16).extractLsb' 8 8 = b1 := by
  ext i hi
  simp only [BitVec.getElem_extractLsb', BitVec.getLsbD_append]
  rw [if_neg (by omega), BitVec.getLsbD_eq_getElem (by omega)]
  simp

/-- A header is its two bytes (42_header.md R140). -/
theorem headerOfBytes_extract (h : Header) : (h.extractLsb' 8 8 ++ h.extractLsb' 0 8 : BitVec 16) = h := by
  apply BitVec.eq_of_getLsbD_eq
  intro i hi
  simp only [BitVec.getLsbD_append, BitVec.getLsbD_extractLsb']
  split_ifs with h8
  · simp [h8]
  · simp only [show i - 8 < 8 by omega, show 8 + (i - 8) = i by omega, decide_true, Bool.true_and]

/-- The two header bytes. -/
theorem Memory.readHeader_eq_some (m : Memory) (a : Nat) (h : Header) :
    m.readHeader a = some h ↔ m.holds a (headerBytes h) := by
  have hb : ∀ b0 b1 : Byte, ((b1 ++ b0 : BitVec 16) = h) ↔ (b0 = h.extractLsb' 0 8 ∧ b1 = h.extractLsb' 8 8) := by
    intro b0 b1
    constructor
    · rintro rfl; exact ⟨(headerOfBytes_low b0 b1).symm, (headerOfBytes_high b0 b1).symm⟩
    · rintro ⟨rfl, rfl⟩; exact headerOfBytes_extract h
  rw [Memory.readHeader, headerBytes, Memory.holds_cons, Memory.holds_cons]
  simp only [Memory.holds_nil, and_true]
  constructor
  · split
    · rename_i b0 b1 hr
      have := Memory.holds_of_readBytes hr
      rw [Memory.holds_cons, Memory.holds_cons] at this
      intro he
      obtain ⟨rfl, rfl⟩ := (hb b0 b1).1 (by simpa using he)
      exact ⟨this.1, this.2.1⟩
    · simp
  · rintro ⟨h0, h1⟩
    have : m.readBytes a 2 = some [h.extractLsb' 0 8, h.extractLsb' 8 8] := by
      rw [Memory.readBytes_eq_some]
      simp [Memory.holds_cons, Memory.holds_nil, h0, h1]
    rw [this]
    simpa using (hb _ _).2 ⟨rfl, rfl⟩

theorem Memory.readHeader_eq_none (m : Memory) (a : Nat) :
    m.readHeader a = none ↔ m.read a = none ∨ m.read (a + 1) = none := by
  rw [Memory.readHeader]
  have h2 := Memory.readBytes_eq_none m a 2
  split
  · rename_i b0 b1 hr
    rw [hr] at h2
    simp only [reduceCtorEq, false_iff, not_exists, not_and] at h2 ⊢
    have a0 := h2 0 (by omega)
    have a1 := h2 1 (by omega)
    simp only [Nat.add_zero] at a0
    tauto
  · rename_i hne
    simp only [true_iff]
    cases hr : m.readBytes a 2 with
    | some bs =>
      have hl := Memory.readBytes_length hr
      match bs, hl with
      | [b0, b1], _ => exact absurd hr (hne b0 b1)
    | none =>
      obtain ⟨i, hi, hn⟩ := h2.1 hr
      have : i = 0 ∨ i = 1 := by omega
      rcases this with rfl | rfl
      · exact .inl (by simpa using hn)
      · exact .inr hn

/-! ## The range check -/

theorem State.inRange_iff (s : State) (a n : Nat) : s.inRange a n = true ↔ n = 0 ∨ a + n ≤ s.memSize := by
  simp [State.inRange]

end Sys2Proof.Machine
end

