-- ==== Sys2Proof/Laws/Header.lean ====
section
/-! SUPPORT. The fields of a header as numbers, and what packing and the checksum field do to them. -/

namespace Sys2Proof.Machine

theorem getFlag_toNat (h : Header) : (getFlag h).toNat = h.toNat % 8 := by
  simp [getFlag, BitVec.extractLsb'_toNat]

theorem getNameLen_toNat (h : Header) : (getNameLen h).toNat = h.toNat / 8 % 16 := by
  simp [getNameLen, BitVec.extractLsb'_toNat, Nat.shiftRight_eq_div_pow]

theorem getMsgLen_toNat (h : Header) : (getMsgLen h).toNat = h.toNat / 128 % 2 + 2 * (h.toNat / 256 % 16) := by
  rw [getMsgLen, BitVec.toNat_append, BitVec.extractLsb'_toNat, BitVec.extractLsb'_toNat, Nat.shiftRight_eq_div_pow,
    Nat.shiftRight_eq_div_pow, Nat.shiftLeft_eq, Nat.mul_comm, ← Nat.two_pow_add_eq_or_of_lt (by omega)]
  omega

theorem getCrc4_toNat (h : Header) : (getCrc4 h).toNat = h.toNat / 4096 := by
  simp [getCrc4, BitVec.extractLsb'_toNat, Nat.shiftRight_eq_div_pow]
  have := h.isLt
  omega

/-- Packing is exact in the ranges of 42_header.md R141. -/
theorem pack_toNat {f n m c : Nat} (hf : f ≤ 7) (hn : n ≤ 15) (hm : m ≤ 31) (hc : c ≤ 15) :
    (pack f n m c).toNat = f + 8 * n + 128 * (m % 2) + 256 * (m / 2) + 4096 * c := by
  rw [pack, BitVec.toNat_ofNat, Nat.mod_eq_of_lt (by omega)]

theorem setCrc4_toNat (h : Header) (c : Nibble) : (setCrc4 h c).toNat = h.toNat % 4096 + 4096 * c.toNat := by
  rw [setCrc4, BitVec.toNat_append, BitVec.extractLsb'_toNat, Nat.shiftRight_eq_div_pow, Nat.shiftLeft_eq, Nat.mul_comm,
    ← Nat.two_pow_add_eq_or_of_lt (by omega)]
  omega

theorem zeroedHeader_toNat (h : Header) : (zeroedHeader h).toNat = h.toNat % 4096 := by
  rw [zeroedHeader, BitVec.toNat_and]
  exact Nat.and_two_pow_sub_one_eq_mod h.toNat 12

theorem header_toNat (b0 b1 : Byte) : (b1 ++ b0 : BitVec 16).toNat = b0.toNat + 256 * b1.toNat := by
  rw [BitVec.toNat_append, Nat.shiftLeft_eq, Nat.mul_comm, ← Nat.two_pow_add_eq_or_of_lt b0.isLt]
  omega

theorem headerBytes_eq (h : Header) :
    headerBytes h = [BitVec.ofNat 8 (h.toNat % 256), BitVec.ofNat 8 (h.toNat / 256)] := by
  rw [headerBytes]
  congr 1
  · apply BitVec.eq_of_toNat_eq; simp [BitVec.extractLsb'_toNat]
  · congr 1; apply BitVec.eq_of_toNat_eq; simp [BitVec.extractLsb'_toNat, Nat.shiftRight_eq_div_pow]

@[simp] theorem headerBytes_length (h : Header) : (headerBytes h).length = 2 := rfl

/-- The fields of a header whose checksum field is replaced. -/
theorem getFlag_setCrc4 (h : Header) (c : Nibble) : getFlag (setCrc4 h c) = getFlag h := by
  apply BitVec.eq_of_toNat_eq; rw [getFlag_toNat, getFlag_toNat, setCrc4_toNat]; omega

theorem getNameLen_setCrc4 (h : Header) (c : Nibble) : getNameLen (setCrc4 h c) = getNameLen h := by
  apply BitVec.eq_of_toNat_eq; rw [getNameLen_toNat, getNameLen_toNat, setCrc4_toNat]; omega

theorem getMsgLen_setCrc4 (h : Header) (c : Nibble) : getMsgLen (setCrc4 h c) = getMsgLen h := by
  apply BitVec.eq_of_toNat_eq; rw [getMsgLen_toNat, getMsgLen_toNat, setCrc4_toNat]; omega

theorem getCrc4_setCrc4 (h : Header) (c : Nibble) : getCrc4 (setCrc4 h c) = c := by
  apply BitVec.eq_of_toNat_eq; rw [getCrc4_toNat, setCrc4_toNat]; have := c.isLt; omega

theorem zeroedHeader_setCrc4 (h : Header) (c : Nibble) : zeroedHeader (setCrc4 h c) = zeroedHeader h := by
  apply BitVec.eq_of_toNat_eq; rw [zeroedHeader_toNat, zeroedHeader_toNat, setCrc4_toNat]; omega

/-- A header whose checksum field is 0 is its own zeroed header. -/
theorem zeroedHeader_pack {f n m : Nat} (hf : f ≤ 7) (hn : n ≤ 15) (hm : m ≤ 31) :
    zeroedHeader (pack f n m 0) = pack f n m 0 := by
  apply BitVec.eq_of_toNat_eq; rw [zeroedHeader_toNat, pack_toNat hf hn hm (by omega)]; omega

/-- The zeroed header in bytes: byte 1 keeps its low nibble (42_header.md R146). -/
theorem headerBytes_zeroed (b0 b1 : Byte) : headerBytes (zeroedHeader (b1 ++ b0)) = [b0, b1 &&& 0x0F#8] := by
  rw [headerBytes_eq, zeroedHeader_toNat, header_toNat]
  have h0 := b0.isLt
  have h1 := b1.isLt
  congr 1
  · apply BitVec.eq_of_toNat_eq; simp; omega
  · congr 1
    apply BitVec.eq_of_toNat_eq
    rw [BitVec.toNat_ofNat, BitVec.toNat_and]
    rw [show (0x0F#8).toNat = 2 ^ 4 - 1 by rfl, Nat.and_two_pow_sub_one_eq_mod]
    omega

/-- `HDR_FIELDS` bit by bit: each field in its lane, zeros between (10_state.md R40). -/
theorem hdrFields_getLsbD (h : Header) (i : Nat) :
    (hdrFields h).getLsbD i =
      if i < 3 then (getFlag h).getLsbD i
      else if i < 8 then false
      else if i < 12 then (getNameLen h).getLsbD (i - 8)
      else if i < 16 then false
      else if i < 21 then (getMsgLen h).getLsbD (i - 16)
      else if i < 24 then false
      else if i < 28 then (getCrc4 h).getLsbD (i - 24)
      else false := by
  show BitVec.getLsbD (w := 4 + 4 + 3 + 5 + 4 + 4 + 5 + 3)
    (0#4 ++ getCrc4 h ++ 0#3 ++ getMsgLen h ++ 0#4 ++ getNameLen h ++ 0#5 ++ getFlag h) i = _
  simp only [BitVec.getLsbD_append, BitVec.getLsbD_zero]
  split_ifs <;> first | rfl | omega

end Sys2Proof.Machine
end

