-- ==== Sys2Proof/Laws/Crc.lean ====
section
/-! SUPPORT. The CRC4 functions: a byte is two folds, and what the fold of one nibble keeps. -/

namespace Sys2Proof.Machine

@[simp] theorem crc4Range_nil (c : Nibble) : crc4Range c [] = c := rfl

@[simp] theorem foldNibbles_zero (v : BitVec 64) (c : Nibble) : foldNibbles v 0 c = c := rfl

theorem foldNibbles_succ (v : BitVec 64) (n : Nat) (c : Nibble) :
    foldNibbles v (n + 1) c = foldNibbles v n (crcFold c (v.extractLsb' (4 * n) 4)) := rfl

/-- Nibble `i` of the masked value is nibble `i` of the low bits as a number. -/
theorem maskLow_toNat (v : BitVec 64) {bits : Nat} (h : bits ≤ 64) : (maskLow v bits).toNat = v.toNat % 2 ^ bits := by
  unfold maskLow
  split_ifs with hb
  · rw [BitVec.toNat_and, BitVec.toNat_ofNat, Nat.mod_eq_of_lt, Nat.and_two_pow_sub_one_eq_mod]
    exact lt_of_le_of_lt (Nat.sub_le _ _) (Nat.pow_lt_pow_right (by omega) hb)
  · obtain rfl : bits = 64 := by omega
    exact (Nat.mod_eq_of_lt v.isLt).symm

theorem nibble_toNat (v : BitVec 64) (i : Nat) : v.extractLsb' (4 * i) 4 = BitVec.ofNat 4 (v.toNat / 16 ^ i) := by
  apply BitVec.eq_of_toNat_eq
  rw [BitVec.extractLsb'_toNat, BitVec.toNat_ofNat, Nat.shiftRight_eq_div_pow, Nat.pow_mul]

/-- A byte is folded high nibble first (41_crc4.md R124). -/
theorem crc4_byte (c : Nibble) (b : Byte) :
    crc4 c (b.setWidth 64) 8 = crcFold (crcFold c (b.extractLsb' 4 4)) (b.extractLsb' 0 4) := by
  have e : ∀ k, k + 4 ≤ 8 → (maskLow (b.setWidth 64) 8).extractLsb' k 4 = b.extractLsb' k 4 := by
    intro k hk
    apply BitVec.eq_of_toNat_eq
    rw [BitVec.extractLsb'_toNat, BitVec.extractLsb'_toNat, maskLow_toNat _ (by omega), BitVec.toNat_setWidth]
    have := b.isLt
    rw [Nat.mod_eq_of_lt (show b.toNat < 2 ^ 64 by omega), Nat.mod_eq_of_lt (show b.toNat < 2 ^ 8 by omega)]
  show foldNibbles _ 2 c = _
  rw [foldNibbles_succ, foldNibbles_succ, foldNibbles_zero, e _ (by omega), e _ (by omega)]

theorem crc4Range_cons (c : Nibble) (b : Byte) (bs : List Byte) :
    crc4Range c (b :: bs) = crc4Range (crcFold (crcFold c (b.extractLsb' 4 4)) (b.extractLsb' 0 4)) bs := by
  rw [crc4Range, crc4_byte]

/-- The checksum of a packet is over its zeroed header, then its body (43_packet.md R171). -/
theorem pktCrc_eq (b0 b1 : Byte) (body : List Byte) :
    pktCrc (b0 :: b1 :: body) = crc4Range 0#4 (headerBytes (zeroedHeader (b1 ++ b0)) ++ body) := by
  rw [headerBytes_zeroed]; rfl

end Sys2Proof.Machine
end

