-- ==== Sys2Proof/Laws/Exec.lean ====
section
/-! SUPPORT. What each command can do, said once: an error that changes `STATUS` only, or its own effect. -/

namespace Sys2Proof.Machine

@[simp] theorem complete_eq_next (s t : State) : complete s = .next t ↔ s.withStatus .ok = t := by simp [complete]

@[simp] theorem raiseError_eq_next (e : ErrCode) (s t : State) : raiseError e s = .next t ↔ s.withStatus e = t := by
  simp [raiseError]

@[simp] theorem complete_ne_fault (s : State) (f : Fault) : complete s ≠ .fault f := by simp [complete]

@[simp] theorem raiseError_ne_fault (e : ErrCode) (s : State) (f : Fault) : raiseError e s ≠ .fault f := by
  simp [raiseError]

@[simp] theorem complete_ne_refused (s : State) (r : Refusal) : complete s ≠ .refused r := by simp [complete]

@[simp] theorem raiseError_ne_refused (e : ErrCode) (s : State) (r : Refusal) : raiseError e s ≠ .refused r := by
  simp [raiseError]

/-- The codes commands write (60_exceptions.md R246): the two of the host procedures are not among them. -/
def ErrCode.raised (e : ErrCode) : Prop := e ≠ .ok ∧ e ≠ .inconsistentSender ∧ e ≠ .emptyBuffer

theorem execCrcVal_cases {s t : State} (h : execCrcVal s = .next t) :
    (∃ e : ErrCode, e.raised ∧ t = s.withStatus e) ∨
      (s.crcBits.toNat ≤ 64 ∧
        t = (s.withCrcResult (crc4 s.crcStart s.crcValue s.crcBits.toNat)).withStatus .ok) := by
  unfold execCrcVal at h
  split_ifs at h with h1
  · exact .inl ⟨.invalidBits, by simp [ErrCode.raised], ((raiseError_eq_next _ _ _).1 h).symm⟩
  · exact .inr ⟨by omega, ((complete_eq_next _ _).1 h).symm⟩

theorem execCrcRange_cases {s t : State} (h : execCrcRange s = .next t) :
    (∃ e : ErrCode, e.raised ∧ t = s.withStatus e) ∨
      ∃ bytes, s.inRange s.srcAddr.toNat s.srcLen.toNat = true ∧
        s.mem.readBytes s.srcAddr.toNat s.srcLen.toNat = some bytes ∧
        t = (s.withCrcResult (crc4Range s.crcStart bytes)).withStatus .ok := by
  unfold execCrcRange at h
  split_ifs at h with h1
  · split at h
    · simp at h
    · rename_i bytes hb; exact .inr ⟨bytes, h1, hb, ((complete_eq_next _ _).1 h).symm⟩
  · exact .inl ⟨.addrRange, by simp [ErrCode.raised], ((raiseError_eq_next _ _ _).1 h).symm⟩

theorem execHdrNew_cases {s t : State} (h : execHdrNew s = .next t) :
    (∃ e : ErrCode, e.raised ∧ t = s.withStatus e) ∨
      (1 ≤ s.nameLen.toNat ∧ s.nameLen.toNat ≤ 15 ∧ 1 ≤ s.msgLen.toNat ∧ s.msgLen.toNat ≤ 31 ∧
        t = (s.withHdr (pack 5 s.nameLen.toNat s.msgLen.toNat 0)).withStatus .ok) := by
  unfold execHdrNew at h
  split_ifs at h with h1
  · exact .inl ⟨.invalidLength, by simp [ErrCode.raised], ((raiseError_eq_next _ _ _).1 h).symm⟩
  · simp only [Config.nameLenMax, Config.msgLenMax] at h1
    exact .inr ⟨by omega, by omega, by omega, by omega, ((complete_eq_next _ _).1 h).symm⟩

theorem execHdrLoad_cases {s t : State} (h : execHdrLoad s = .next t) :
    (∃ e : ErrCode, e.raised ∧ t = s.withStatus e) ∨
      ∃ hd, s.inRange s.srcAddr.toNat s.srcLen.toNat = true ∧ 2 ≤ s.srcLen.toNat ∧
        s.mem.readHeader s.srcAddr.toNat = some hd ∧ t = (s.withHdr hd).withStatus .ok := by
  unfold execHdrLoad at h
  split_ifs at h with h1 h2
  · exact .inl ⟨.truncatedHeader, by simp [ErrCode.raised], ((raiseError_eq_next _ _ _).1 h).symm⟩
  · split at h
    · simp at h
    · rename_i hd hh
      simp only [Config.headerSize] at h2
      exact .inr ⟨hd, h1, by omega, hh, ((complete_eq_next _ _).1 h).symm⟩
  · exact .inl ⟨.addrRange, by simp [ErrCode.raised], ((raiseError_eq_next _ _ _).1 h).symm⟩

theorem execHdrStore_cases {s t : State} (h : execHdrStore s = .next t) :
    (∃ e : ErrCode, e.raised ∧ t = s.withStatus e) ∨
      (s.dstAddr.toNat + 2 ≤ s.memSize ∧
        t = (s.withMem (s.mem.writeBytes s.dstAddr.toNat (headerBytes s.hdr))).withStatus .ok) := by
  unfold execHdrStore at h
  split_ifs at h with h1
  · refine .inr ⟨?_, ((complete_eq_next _ _).1 h).symm⟩
    simpa [State.inRange_iff, Config.headerSize] using h1
  · exact .inl ⟨.addrRange, by simp [ErrCode.raised], ((raiseError_eq_next _ _ _).1 h).symm⟩

theorem packetHeader_crc (name chunk : List Byte) :
    getCrc4 (packetHeader name chunk) =
      crc4Range 0#4 (headerBytes (pack Config.flag name.length chunk.length 0) ++ name ++ chunk) :=
  getCrc4_setCrc4 _ _

theorem execPktAsm_cases {s t : State} (h : execPktAsm s = .next t) :
    (∃ e : ErrCode, e.raised ∧ t = s.withStatus e) ∨
      ∃ name chunk, 1 ≤ s.nameLen.toNat ∧ s.nameLen.toNat ≤ 15 ∧ 1 ≤ s.msgLen.toNat ∧
        s.nameAddr.toNat + s.nameLen.toNat ≤ s.memSize ∧ s.msgAddr.toNat + s.chunkLen ≤ s.memSize ∧
        s.dstAddr.toNat + s.asmSize ≤ s.memSize ∧
        s.mem.readBytes s.nameAddr.toNat s.nameLen.toNat = some name ∧
        s.mem.readBytes s.msgAddr.toNat s.chunkLen = some chunk ∧
        t = (((((s.withMem (s.mem.writeBytes s.dstAddr.toNat (packetBytes name chunk))).withHdr
          (packetHeader name chunk)).withCrcResult (getCrc4 (packetHeader name chunk))).withResults
          s.asmSize (s.dstAddr.toNat + 2) (s.dstAddr.toNat + 2 + s.nameLen.toNat) s.chunkLen)).withStatus .ok := by
  unfold execPktAsm at h
  split_ifs at h with h1 h2 h3 h4
  · exact .inl ⟨.emptyInput, by simp [ErrCode.raised], ((raiseError_eq_next _ _ _).1 h).symm⟩
  · exact .inl ⟨.nameTooLong, by simp [ErrCode.raised], ((raiseError_eq_next _ _ _).1 h).symm⟩
  · exact .inl ⟨.emptyInput, by simp [ErrCode.raised], ((raiseError_eq_next _ _ _).1 h).symm⟩
  · split at h
    · rename_i name chunk hn hc
      simp only [Bool.and_eq_true, State.inRange_iff] at h4
      simp only [Config.nameLenMax] at h2
      have hk : 1 ≤ s.chunkLen := by simp only [State.chunkLen, Config.msgLenMax]; omega
      have hz : 1 ≤ s.asmSize := by simp only [State.asmSize, Config.headerSize]; omega
      exact .inr ⟨name, chunk, by omega, by omega, by omega, by omega, by omega, by omega, hn, hc,
        ((complete_eq_next _ _).1 h).symm⟩
    · simp at h
  · exact .inl ⟨.addrRange, by simp [ErrCode.raised], ((raiseError_eq_next _ _ _).1 h).symm⟩

theorem execPktDis_cases {s t : State} (h : execPktDis s = .next t) :
    (∃ e : ErrCode, e.raised ∧ t = s.withStatus e) ∨
      ∃ hd body, s.inRange s.srcAddr.toNat s.srcLen.toNat = true ∧
        s.mem.readHeader s.srcAddr.toNat = some hd ∧ headerWf hd = true ∧ declaredSize hd ≤ s.srcLen.toNat ∧
        s.mem.readBytes (s.srcAddr.toNat + 2) ((getNameLen hd).toNat + (getMsgLen hd).toNat) = some body ∧
        crc4Range 0#4 (headerBytes (zeroedHeader hd) ++ body) = getCrc4 hd ∧
        t = (((s.withHdr hd).withCrcResult (getCrc4 hd)).withResults (declaredSize hd) (s.srcAddr.toNat + 2)
          (s.srcAddr.toNat + 2 + (getNameLen hd).toNat) (getMsgLen hd).toNat).withStatus .ok := by
  unfold execPktDis at h
  split_ifs at h with h1 h2
  · exact .inl ⟨.truncatedHeader, by simp [ErrCode.raised], ((raiseError_eq_next _ _ _).1 h).symm⟩
  · split at h
    · simp at h
    · rename_i hd hh
      split_ifs at h with h3 h4 h5
      · exact .inl ⟨.invalidFlag, by simp [ErrCode.raised], ((raiseError_eq_next _ _ _).1 h).symm⟩
      · exact .inl ⟨.invalidLength, by simp [ErrCode.raised], ((raiseError_eq_next _ _ _).1 h).symm⟩
      · exact .inl ⟨.truncatedPacket, by simp [ErrCode.raised], ((raiseError_eq_next _ _ _).1 h).symm⟩
      · split at h
        · simp at h
        · rename_i body hb
          split_ifs at h with h6
          · exact .inl ⟨.checksumMismatch, by simp [ErrCode.raised], ((raiseError_eq_next _ _ _).1 h).symm⟩
          · rw [not_not] at h6
            rw [h6] at h
            exact .inr ⟨hd, body, h1, hh, by simp only [headerWf, decide_eq_true_eq]; tauto, by omega, hb, h6,
              ((complete_eq_next _ _).1 h).symm⟩
  · exact .inl ⟨.addrRange, by simp [ErrCode.raised], ((raiseError_eq_next _ _ _).1 h).symm⟩

/-- The commands of no check: their effect is the whole of them. -/
theorem execNop_eq (s : State) : execNop s = .next (s.withStatus .ok) := rfl

theorem execHdrSetCrc_eq (s : State) :
    execHdrSetCrc s = .next ((s.withHdr (setCrc4 s.hdr s.crcResult)).withStatus .ok) := rfl

theorem execHdrChecksum_eq (s : State) :
    execHdrChecksum s =
      .next ((s.withCrcResult (crc4Range 0#4 (headerBytes (zeroedHeader s.hdr)))).withStatus .ok) := rfl

theorem execReservedAB_eq (opc : BitVec 4) (s : State) : execReservedAB opc s = .next (s.withStatus .illegalCommand) := rfl

theorem execReservedCF_eq (opc : BitVec 4) (s : State) : execReservedCF opc s = .next (s.withStatus .illegalCommand) := rfl

/-! ## Where no check fails -/

theorem execPktAsm_ok {s : State} {name chunk : List Byte} (h1 : 1 ≤ s.nameLen.toNat) (h2 : s.nameLen.toNat ≤ 15)
    (h3 : 1 ≤ s.msgLen.toNat) (h4 : s.nameAddr.toNat + s.nameLen.toNat ≤ s.memSize)
    (h5 : s.msgAddr.toNat + s.chunkLen ≤ s.memSize) (h6 : s.dstAddr.toNat + s.asmSize ≤ s.memSize)
    (h7 : s.mem.readBytes s.nameAddr.toNat s.nameLen.toNat = some name)
    (h8 : s.mem.readBytes s.msgAddr.toNat s.chunkLen = some chunk) :
    execPktAsm s = .next ((((((s.withMem (s.mem.writeBytes s.dstAddr.toNat (packetBytes name chunk))).withHdr
          (packetHeader name chunk)).withCrcResult (getCrc4 (packetHeader name chunk))).withResults
          s.asmSize (s.dstAddr.toNat + 2) (s.dstAddr.toNat + 2 + s.nameLen.toNat) s.chunkLen)).withStatus .ok) := by
  have i1 := (State.inRange_iff s _ _).2 (.inr h4)
  have i2 := (State.inRange_iff s _ _).2 (.inr h5)
  have i3 := (State.inRange_iff s _ _).2 (.inr h6)
  unfold execPktAsm
  rw [if_neg (by omega), if_neg (by simp only [Config.nameLenMax]; omega), if_neg (by omega), i1, i2, i3, h7, h8]
  rfl

theorem execPktDis_ok {s : State} {hd : Header} {body : List Byte}
    (h1 : s.inRange s.srcAddr.toNat s.srcLen.toNat = true) (h2 : s.mem.readHeader s.srcAddr.toNat = some hd)
    (h3 : headerWf hd = true) (h4 : declaredSize hd ≤ s.srcLen.toNat)
    (h5 : s.mem.readBytes (s.srcAddr.toNat + 2) ((getNameLen hd).toNat + (getMsgLen hd).toNat) = some body)
    (h6 : crc4Range 0#4 (headerBytes (zeroedHeader hd) ++ body) = getCrc4 hd) :
    execPktDis s = .next ((((s.withHdr hd).withCrcResult (getCrc4 hd)).withResults (declaredSize hd) (s.srcAddr.toNat + 2)
          (s.srcAddr.toNat + 2 + (getNameLen hd).toNat) (getMsgLen hd).toNat).withStatus .ok) := by
  simp only [headerWf, decide_eq_true_eq] at h3
  have h7 : ¬ s.srcLen.toNat < Config.headerSize := by simp only [declaredSize] at h4; omega
  unfold execPktDis
  rw [if_pos h1, if_neg h7, h2]
  dsimp only
  rw [if_neg (by simpa using h3.1), if_neg (by tauto), if_neg (by omega), h5]
  dsimp only
  rw [h6, if_neg (by simp)]
  rfl

end Sys2Proof.Machine
end

