-- ==== Sys2Proof/Laws/Packet.lean ====
section
/-! SUPPORT. Packets: the header PKT_ASM gives them, what a well-formed packet is, and the commands as the host procedures
issue them. -/

namespace Sys2Proof.Machine

theorem Memory.readHeader_of_reads {m : Memory} {a : Nat} {b0 b1 : Byte} (h0 : m.read a = some b0)
    (h1 : m.read (a + 1) = some b1) : m.readHeader a = some (b1 ++ b0) := by
  rw [Memory.readHeader_eq_some, headerBytes, headerOfBytes_low, headerOfBytes_high, Memory.holds_cons, Memory.holds_cons]
  exact ⟨h0, h1, Memory.holds_nil _ _⟩

theorem State.not_inRange {s : State} {a n : Nat} (h : n ≠ 0) (h2 : s.memSize < a + n) : ¬s.inRange a n = true := by
  rw [State.inRange_iff]; omega

theorem setCrc4_setCrc4 (h : Header) (c : Nibble) : setCrc4 (setCrc4 h c) c = setCrc4 h c := by
  apply BitVec.eq_of_toNat_eq; rw [setCrc4_toNat, setCrc4_toNat]; omega

@[simp] theorem State.err_withStatus (s : State) (e : ErrCode) : (s.withStatus e).err = e.code := by
  have : ∀ c : BitVec 4, (1#1 ++ c : BitVec 5).extractLsb' 0 4 = c := by decide
  exact this _

@[simp] theorem State.done_withStatus (s : State) (e : ErrCode) : (s.withStatus e).done = true := by
  have : ∀ c : BitVec 4, (1#1 ++ c : BitVec 5).getLsbD 4 = true := by decide
  exact this _

theorem ErrCode.code_ne_zero {e : ErrCode} (h : e.raised) : e.code ≠ 0#4 := by
  cases e <;> first | decide | simp [ErrCode.raised] at h

/-- The fields of the header PKT_ASM makes (43_packet.md R173). -/
theorem packetHeader_fields {name chunk : List Byte} (hn : name.length ≤ 15) (hm : chunk.length ≤ 31) :
    (getFlag (packetHeader name chunk)).toNat = Config.flag ∧ (getNameLen (packetHeader name chunk)).toNat = name.length ∧
      (getMsgLen (packetHeader name chunk)).toNat = chunk.length ∧
      declaredSize (packetHeader name chunk) = 2 + name.length + chunk.length := by
  have hp := pack_toNat (f := Config.flag) (n := name.length) (m := chunk.length) (c := 0) (by decide) hn hm (by omega)
  have e1 : (getNameLen (packetHeader name chunk)).toNat = name.length := by
    rw [packetHeader, getNameLen_setCrc4, getNameLen_toNat, hp]; simp only [Config.flag]; omega
  have e2 : (getMsgLen (packetHeader name chunk)).toNat = chunk.length := by
    rw [packetHeader, getMsgLen_setCrc4, getMsgLen_toNat, hp]; simp only [Config.flag]; omega
  refine ⟨?_, e1, e2, by rw [declaredSize, e1, e2]; rfl⟩
  rw [packetHeader, getFlag_setCrc4, getFlag_toNat, hp]; simp only [Config.flag]; omega

theorem packetHeader_wf {name chunk : List Byte} (hn1 : 1 ≤ name.length) (hn : name.length ≤ 15)
    (hm1 : 1 ≤ chunk.length) (hm : chunk.length ≤ 31) : headerWf (packetHeader name chunk) = true := by
  obtain ⟨e1, e2, e3, -⟩ := packetHeader_fields hn hm
  refine decide_eq_true ⟨e1, fun e => ?_, fun e => ?_⟩
  · rw [e] at e2; simp at e2; omega
  · rw [e] at e3; simp at e3; omega

/-- The stored `crc4` field is the checksum PKT_DIS computes (43_packet.md R171, R173, R175). -/
theorem packetHeader_checksum {name chunk : List Byte} (hn : name.length ≤ 15) (hm : chunk.length ≤ 31) :
    crc4Range 0#4 (headerBytes (zeroedHeader (packetHeader name chunk)) ++ (name ++ chunk)) =
      getCrc4 (packetHeader name chunk) := by
  rw [packetHeader_crc, packetHeader, zeroedHeader_setCrc4, zeroedHeader_pack (by decide) hn hm, List.append_assoc]

theorem packetBytes_length (name chunk : List Byte) :
    (packetBytes name chunk).length = 2 + name.length + chunk.length := by
  simp only [packetBytes, List.length_append, headerBytes_length]

/-- The pseudo-instruction `asm` (30_encoding.md R87) is PKT_ASM after five register writes. -/
theorem issueAll_asm (na nl ma ml d : Word) (s : State) :
    issueAll (pseudoAccesses (.asm na nl ma ml d)) s =
      execPktAsm { s with nameAddr := na, nameLen := nl, msgAddr := ma, msgLen := ml, dstAddr := d } := by
  have : ∀ o : Host.Outcome State Fault Refusal,
      (match o with | .next s' => issueAll [] s' | .fault f => .fault f | .refused r => .refused r) = o := by
    intro o; cases o <;> rfl
  exact this _

/-- The pseudo-instruction `dis` (30_encoding.md R87) is PKT_DIS after two register writes. -/
theorem issueAll_dis (a n : Word) (s : State) :
    issueAll (pseudoAccesses (.dis a n)) s = execPktDis { s with srcAddr := a, srcLen := n } := by
  have : ∀ o : Host.Outcome State Fault Refusal,
      (match o with | .next s' => issueAll [] s' | .fault f => .fault f | .refused r => .refused r) = o := by
    intro o; cases o <;> rfl
  exact this _

/-- What `STATUS[3:0]` reads as (10_state.md R26). -/
theorem regRead_status_err (s : State) : (regRead .status s).extractLsb' 0 4 = s.err := by
  have : ∀ v : BitVec 5, (v.setWidth 32).extractLsb' 0 4 = v.extractLsb' 0 4 := by decide
  exact this _

/-- What bits 11..8 of `HDR_FIELDS` read as (10_state.md R40). -/
theorem regRead_hdrFields_nameLen (s : State) : (regRead .hdrFields s).extractLsb' 8 4 = getNameLen s.hdr := by
  apply BitVec.eq_of_getLsbD_eq
  intro i hi
  simp only [BitVec.getLsbD_extractLsb', regRead, hdrFields_getLsbD, getNameLen]
  rcases i with _ | _ | _ | _ | i <;> first | omega | simp

/-- The two header bytes, the name and the chunk of a well-formed packet (43_packet.md R172). -/
theorem packetWf_iff (p : List Byte) : packetWf p = true ↔ ∃ (b0 b1 : Byte) (body : List Byte), p = b0 :: b1 :: body ∧
    headerWf (b1 ++ b0) = true ∧ body.length + 2 = declaredSize (b1 ++ b0) ∧
    getCrc4 (b1 ++ b0) = pktCrc (b0 :: b1 :: body) := by
  constructor
  · intro h
    match p with
    | [] => exact Bool.noConfusion h
    | [_] => exact Bool.noConfusion h
    | b0 :: b1 :: body =>
      simp only [packetWf, Bool.and_eq_true] at h
      exact ⟨b0, b1, body, rfl, h.1.1, of_decide_eq_true h.1.2, of_decide_eq_true h.2⟩
  · rintro ⟨b0, b1, body, rfl, h1, h2, h3⟩
    simp only [packetWf, h1, Bool.true_and, Bool.and_eq_true]
    exact ⟨decide_eq_true h2, decide_eq_true h3⟩

theorem packetBytes_cons (name chunk : List Byte) :
    packetBytes name chunk = (packetHeader name chunk).extractLsb' 0 8 :: (packetHeader name chunk).extractLsb' 8 8 ::
      (name ++ chunk) := by
  simp [packetBytes, headerBytes]

theorem packetHeaderOf_packetBytes (name chunk : List Byte) :
    packetHeaderOf (packetBytes name chunk) = packetHeader name chunk := by
  rw [packetBytes_cons]; exact headerOfBytes_extract _

/-- What PKT_ASM lays out is a well-formed packet of its name and its chunk (43_packet.md R172, R173). -/
theorem packetWf_packetBytes {name chunk : List Byte} (h1 : 1 ≤ name.length) (h2 : name.length ≤ 15)
    (h3 : 1 ≤ chunk.length) (h4 : chunk.length ≤ 31) : packetWf (packetBytes name chunk) = true := by
  obtain ⟨-, -, -, f4⟩ := packetHeader_fields h2 h4
  rw [packetWf_iff]
  refine ⟨(packetHeader name chunk).extractLsb' 0 8, (packetHeader name chunk).extractLsb' 8 8, name ++ chunk,
    packetBytes_cons _ _, ?_, ?_, ?_⟩
  · rw [headerOfBytes_extract]; exact packetHeader_wf h1 h2 h3 h4
  · rw [headerOfBytes_extract, f4]; simp; omega
  · have := headerBytes_zeroed ((packetHeader name chunk).extractLsb' 0 8) ((packetHeader name chunk).extractLsb' 8 8)
    rw [headerOfBytes_extract] at this
    rw [headerOfBytes_extract, ← packetHeader_checksum h2 h4, this, pktCrc]
    simp only [List.cons_append, List.nil_append]

theorem packetName_packetBytes {name chunk : List Byte} (h2 : name.length ≤ 15) (h4 : chunk.length ≤ 31) :
    packetName (packetBytes name chunk) = name := by
  rw [packetName, packetHeaderOf_packetBytes, (packetHeader_fields h2 h4).2.1, packetBytes_cons]
  simp [Config.headerSize]

theorem packetChunk_packetBytes {name chunk : List Byte} (h2 : name.length ≤ 15) (h4 : chunk.length ≤ 31) :
    packetChunk (packetBytes name chunk) = chunk := by
  rw [packetChunk, packetHeaderOf_packetBytes, (packetHeader_fields h2 h4).2.1, packetBytes_cons]
  show List.drop (2 + name.length) _ = _
  rw [Nat.add_comm]; simp

/-- One PKT_DIS as HOST_DECODE issues it, over a well-formed packet (44_host_framer.md R204): no error, MEM as it was, and the
packet's size, name and chunk where the procedure reads them. -/
theorem issueAll_dis_of_packetWf {p : List Byte} (hp : packetWf p = true) {s : State} {a len : Nat}
    (hM : s.memSize ≤ 2 ^ 32) (hl : p.length ≤ len) (hlen : len < 2 ^ 32) (ha : a + len ≤ s.memSize)
    (hh : s.mem.holds a p) :
    4 ≤ p.length ∧ ∃ s', issueAll (pseudoAccesses (.dis (BitVec.ofNat 32 a) (BitVec.ofNat 32 len))) s = .next s' ∧
      s'.err = 0#4 ∧ s'.mem = s.mem ∧ s'.memSize = s.memSize ∧ (regRead .resSize s').toNat = p.length ∧
      s'.mem.readBytes (regRead .resNameAddr s').toNat ((regRead .hdrFields s').extractLsb' 8 4).toNat =
        some (packetName p) ∧
      s'.mem.readBytes (regRead .resMsgAddr s').toNat (regRead .resMsgLen s').toNat = some (packetChunk p) := by
  obtain ⟨b0, b1, body, rfl, h1, h2, h3⟩ := (packetWf_iff p).1 hp
  have hd : declaredSize (b1 ++ b0) = 2 + (getNameLen (b1 ++ b0)).toNat + (getMsgLen (b1 ++ b0)).toNat := rfl
  obtain ⟨-, hn, hm⟩ := of_decide_eq_true h1
  have hn' : (getNameLen (b1 ++ b0)).toNat ≠ 0 := fun e => hn (BitVec.eq_of_toNat_eq e)
  have hm' : (getMsgLen (b1 ++ b0)).toNat ≠ 0 := fun e => hm (BitVec.eq_of_toNat_eq e)
  have hdl := (getNameLen (b1 ++ b0)).isLt
  have hdm := (getMsgLen (b1 ++ b0)).isLt
  simp only [List.length_cons] at hl ⊢
  refine ⟨by omega, ?_⟩
  have t1 : (BitVec.ofNat 32 a).toNat = a := by rw [BitVec.toNat_ofNat]; omega
  have t2 : (BitVec.ofNat 32 len).toNat = len := by rw [BitVec.toNat_ofNat]; omega
  have t3 : (BitVec.ofNat 32 (a + 2)).toNat = a + 2 := by rw [BitVec.toNat_ofNat]; omega
  have t4 : (BitVec.ofNat 32 (a + 2 + (getNameLen (b1 ++ b0)).toNat)).toNat = a + 2 + (getNameLen (b1 ++ b0)).toNat := by
    rw [BitVec.toNat_ofNat]; omega
  have t5 : (BitVec.ofNat 32 (getMsgLen (b1 ++ b0)).toNat).toNat = (getMsgLen (b1 ++ b0)).toNat := by
    rw [BitVec.toNat_ofNat]; omega
  rw [Memory.holds_cons, Memory.holds_cons] at hh
  obtain ⟨r0, r1, rb⟩ := hh
  have ex := execPktDis_ok (s := { s with srcAddr := BitVec.ofNat 32 a, srcLen := BitVec.ofNat 32 len })
    (hd := b1 ++ b0) (body := body)
    ((State.inRange_iff _ _ _).2 (.inr (by
      show (BitVec.ofNat 32 a).toNat + (BitVec.ofNat 32 len).toNat ≤ s.memSize; omega)))
    (by show Memory.readHeader s.mem (BitVec.ofNat 32 a).toNat = _; rw [t1]; exact Memory.readHeader_of_reads r0 r1) h1
    (by show _ ≤ (BitVec.ofNat 32 len).toNat; omega)
    (by
      show Memory.readBytes s.mem ((BitVec.ofNat 32 a).toNat + 2) _ = _
      rw [t1, show (getNameLen (b1 ++ b0)).toNat + (getMsgLen (b1 ++ b0)).toNat = body.length by omega]
      exact Memory.readBytes_of_holds rb)
    (by rw [headerBytes_zeroed, h3]; rfl)
  refine ⟨_, (issueAll_dis _ _ _).trans ex, State.err_withStatus _ _, rfl, rfl, ?_, ?_, ?_⟩
  · show (BitVec.ofNat 32 (declaredSize _)).toNat = _
    rw [BitVec.toNat_ofNat]; omega
  · rw [regRead_hdrFields_nameLen]
    show Memory.readBytes s.mem (BitVec.ofNat 32 ((BitVec.ofNat 32 a).toNat + 2)).toNat (getNameLen (b1 ++ b0)).toNat = _
    rw [t1, t3, Memory.readBytes_eq_some]
    constructor
    · show (List.take (getNameLen (b1 ++ b0)).toNat body).length = _
      rw [List.length_take]; omega
    · show s.mem.holds _ (List.take _ body)
      intro i hi
      rw [List.getElem_take]; exact rb i _
  · show Memory.readBytes s.mem
      (BitVec.ofNat 32 ((BitVec.ofNat 32 a).toNat + 2 + (getNameLen (b1 ++ b0)).toNat)).toNat
      (BitVec.ofNat 32 (getMsgLen (b1 ++ b0)).toNat).toNat = _
    have hc : packetChunk (b0 :: b1 :: body) = body.drop (getNameLen (b1 ++ b0)).toNat := by
      show List.drop (2 + _) _ = _
      rw [Nat.add_comm]; rfl
    rw [t1, t4, t5, hc, Memory.readBytes_eq_some]
    constructor
    · rw [List.length_drop]; omega
    · intro i hi
      rw [List.length_drop] at hi
      rw [List.getElem_drop, ← rb ((getNameLen (b1 ++ b0)).toNat + i) (by omega)]
      congr 1; omega

/-- The size of an encoding, one packet at a time (44_host_framer.md R210, R211). -/
theorem encodedSize_step (n r : Nat) (h : 1 ≤ r) :
    encodedSize n r = (2 + n + min r 31) + encodedSize n (r - min r 31) := by
  have e : ∀ t, encodedSize n t = t + (t + 30) / 31 * (2 + n) := fun _ => rfl
  rw [e, e, show (r + 30) / 31 = (r - min r 31 + 30) / 31 + 1 by omega, Nat.succ_mul]; omega

theorem chunksUpTo_succ (r : Nat) (text : List Byte) (h : 1 ≤ text.length) :
    chunksUpTo (r + 1) text = text.take 31 :: chunksUpTo r (text.drop 31) := by
  cases text with
  | nil => simp at h
  | cons b bs => rfl

/-- What the preconditions of HOST_ENCODE (44_host_framer.md R201) say. -/
theorem encodePre_iff {name text : List Byte} {na ta oa : Nat} {s : State} :
    encodePre name text na ta oa s = true ↔
      (name.length = 0 ∨ na + name.length ≤ s.memSize) ∧ (text.length = 0 ∨ ta + text.length ≤ s.memSize) ∧
      (encodedSize name.length text.length = 0 ∨ oa + encodedSize name.length text.length ≤ s.memSize) ∧
      s.mem.holds na name ∧ s.mem.holds ta text ∧
      (encodedSize name.length text.length = 0 ∨ name.length = 0 ∨
        oa + encodedSize name.length text.length ≤ na ∨ na + name.length ≤ oa) ∧
      (encodedSize name.length text.length = 0 ∨ text.length = 0 ∨
        oa + encodedSize name.length text.length ≤ ta ∨ ta + text.length ≤ oa) := by
  simp only [encodePre, Bool.and_eq_true, State.inRange_iff, decide_eq_true_eq, disjoint, Memory.readBytes_eq_some,
    true_and, and_assoc]

/-- What the preconditions of HOST_DECODE (44_host_framer.md R201) say. -/
theorem decodePre_iff {ba l : Nat} {s : State} :
    decodePre ba l s = true ↔ (l = 0 ∨ ba + l ≤ s.memSize) ∧ (∃ bs, bs.length = l ∧ s.mem.holds ba bs) ∧ l < 2 ^ 32 := by
  simp only [decodePre, Bool.and_eq_true, State.inRange_iff, decide_eq_true_eq, Option.isSome_iff_exists,
    Memory.readBytes_eq_some, and_assoc]

end Sys2Proof.Machine
end

