-- ==== Sys2Proof/Laws/Invariant.lean ====
section
/-! SUPPORT. The parts of the model's invariant `State.wf`, and what each command leaves of the state. -/

namespace Sys2Proof.Machine

theorem State.wf_iff (s : State) :
    s.wf = true ↔ (48 ≤ s.memSize ∧ s.memSize ≤ 2 ^ 32) ∧ Memory.wf s.mem = true ∧ s.memInBounds = true ∧
      statusLegal s.status = true ∧ s.resultsLegal = true := by
  have e : Config.memSizeLegal s.memSize = true ↔ (48 ≤ s.memSize ∧ s.memSize ≤ 2 ^ 32) := decide_eq_true_iff
  simp only [State.wf, Bool.and_eq_true, e]; tauto

theorem statusLegal_statusOf {e : ErrCode} (h : e.raised ∨ e = .ok) : statusLegal (statusOf e) = true := by
  cases e <;> first | decide | simp [ErrCode.raised] at h

/-- Writes within MEM leave MEM within bounds (20_memory.md R63, R64). -/
theorem State.memInBounds_withMem {s : State} (h : s.memInBounds = true) (a : Nat) (bs : List Byte)
    (hb : a + bs.length ≤ s.memSize) : (s.withMem (s.mem.writeBytes a bs)).memInBounds = true := by
  exact Memory.all_writeBytes (fun n => decide (n < s.memSize)) _ _ _
    (fun i hi => by simp only [decide_eq_true_eq]; omega) h

/-- Every byte of a region in range reads, where MEM is written throughout. -/
theorem State.readBytes_of_written {s : State} (h : ∀ x, x < s.memSize → s.mem.read x ≠ none) {a n : Nat}
    (hr : s.inRange a n = true) : ∃ bs, s.mem.readBytes a n = some bs := by
  rw [State.inRange_iff] at hr
  rw [← Option.ne_none_iff_exists', ne_eq, Memory.readBytes_eq_none]
  rintro ⟨i, hi, hx⟩
  exact h _ (by omega) hx

/-- Everything a command can do: an error in `STATUS`, or an effect on the result registers, `HDR` and MEM with status `Ok`
(40_command.md R102, R103). -/
theorem exec_cases {i : Instr} {s t : State} (h : exec i s = .next t) :
    (∃ e : ErrCode, e.raised ∧ t = s.withStatus e) ∨
      ∃ u : State, t = u.withStatus .ok ∧
        u = { s with crcResult := u.crcResult, hdr := u.hdr, resSize := u.resSize, resNameAddr := u.resNameAddr
                     resMsgAddr := u.resMsgAddr, resMsgLen := u.resMsgLen, mem := u.mem } := by
  cases i with
  | nop => exact .inr ⟨s, (Host.Outcome.next.inj h).symm, rfl⟩
  | crcVal => exact (execCrcVal_cases h).imp id (fun ⟨_, e⟩ => ⟨_, e, rfl⟩)
  | crcRange => exact (execCrcRange_cases h).imp id (fun ⟨_, _, _, e⟩ => ⟨_, e, rfl⟩)
  | hdrNew => exact (execHdrNew_cases h).imp id (fun ⟨_, _, _, _, e⟩ => ⟨_, e, rfl⟩)
  | hdrSetCrc => exact .inr ⟨_, (Host.Outcome.next.inj h).symm, rfl⟩
  | hdrChecksum => exact .inr ⟨_, (Host.Outcome.next.inj h).symm, rfl⟩
  | hdrLoad => exact (execHdrLoad_cases h).imp id (fun ⟨_, _, _, _, e⟩ => ⟨_, e, rfl⟩)
  | hdrStore => exact (execHdrStore_cases h).imp id (fun ⟨_, e⟩ => ⟨_, e, rfl⟩)
  | pktAsm => exact (execPktAsm_cases h).imp id (fun ⟨_, _, _, _, _, _, _, _, _, _, e⟩ => ⟨_, e, rfl⟩)
  | pktDis => exact (execPktDis_cases h).imp id (fun ⟨_, _, _, _, _, _, _, _, e⟩ => ⟨_, e, rfl⟩)
  | reservedAB o => exact .inl ⟨.illegalCommand, by simp [ErrCode.raised], (Host.Outcome.next.inj h).symm⟩
  | reservedCF o => exact .inl ⟨.illegalCommand, by simp [ErrCode.raised], (Host.Outcome.next.inj h).symm⟩

end Sys2Proof.Machine
end

