-- ==== Sys2Proof/Laws/PerInstr.lean ====
section
/-! SUPPORT. Statements made per instruction: the command word of a well-formed command fits its own row of the opcode table
and no other (spec 30_encoding.md R85). -/

namespace Sys2Proof.Laws

/-- Row by row of the table: the word of `i` fits the row exactly where the row is that of `i` (30_encoding.md R85). -/
def RowFits.Statement (i : Instr) : Prop :=
  i.wf = true → opcodeTable.map (fun r => r.fits (encode i)) = (List.range 12).map (fun k => k == rowIndex i)

theorem RowFits.nop : RowFits.Statement .nop := fun _ => by decide

theorem RowFits.crcVal : RowFits.Statement .crcVal := fun _ => by decide

theorem RowFits.crcRange : RowFits.Statement .crcRange := fun _ => by decide

theorem RowFits.hdrNew : RowFits.Statement .hdrNew := fun _ => by decide

theorem RowFits.hdrSetCrc : RowFits.Statement .hdrSetCrc := fun _ => by decide

theorem RowFits.hdrChecksum : RowFits.Statement .hdrChecksum := fun _ => by decide

theorem RowFits.hdrLoad : RowFits.Statement .hdrLoad := fun _ => by decide

theorem RowFits.hdrStore : RowFits.Statement .hdrStore := fun _ => by decide

theorem RowFits.pktAsm : RowFits.Statement .pktAsm := fun _ => by decide

theorem RowFits.pktDis : RowFits.Statement .pktDis := fun _ => by decide

theorem RowFits.reservedAB (opc : BitVec 4) : RowFits.Statement (.reservedAB opc) := by
  revert opc
  unfold RowFits.Statement
  decide

theorem RowFits.reservedCF (opc : BitVec 4) : RowFits.Statement (.reservedCF opc) := by
  revert opc
  unfold RowFits.Statement
  decide

end Sys2Proof.Laws
end

