-- ==== Sys2Proof/Tests/Slice0.lean ====
section
/-! SUPPORT. Small tests of the model. Their expected values are those of spec/95_test_vectors.md (the section is named at each
group); the words are written out bit by bit from 30_encoding.md R81 and R83. -/

namespace Sys2Proof.Tests

open Sys2Proof Sys2Proof.Machine

/-- `MEM_SIZE` 256 as in 95_test_vectors.md, everything else as after reset. -/
def base : State := State.afterReset 256 [] []

/-- The state with the bytes `bs` written at `a`. -/
def withBytes (a : Nat) (bs : List Byte) (s : State) : State := s.withMem (s.mem.writeBytes a bs)

/-- The state after an outcome meets a check. -/
def goesOn (o : Host.Outcome State Fault Refusal) (check : State → Bool) : Bool := (nextState? o).any check

/-- An outcome is the refusal of a host access. -/
def refusesAccess : Host.Outcome State Fault Refusal → Bool
  | .refused .hostAccess => true
  | _ => false

/-- An outcome is the fault of an unwritten byte. -/
def faults : Host.Outcome State Fault Refusal → Bool
  | .fault .uninitRead => true
  | _ => false

theorem next_of_goesOn {o : Host.Outcome State Fault Refusal} {check : State → Bool} (h : goesOn o check = true) :
    ∃ t, o = .next t ∧ check t = true := by
  cases o with
  | next t => exact ⟨t, rfl, by simpa [goesOn, nextState?] using h⟩
  | fault f => simp [goesOn, nextState?] at h
  | refused r => simp [goesOn, nextState?] at h

/-! ## Well-formedness: each check refuses an ill-formed term -/

theorem test_wf_refuses_reservedAB_below : (Instr.reservedAB 0x9#4).wf = false := by decide
theorem test_wf_refuses_reservedAB_above : (Instr.reservedAB 0xC#4).wf = false := by decide
theorem test_wf_refuses_reservedCF_below : (Instr.reservedCF 0xB#4).wf = false := by decide
theorem test_memory_wf_refuses_unsorted : Memory.wf [(5, 0#8), (4, 0#8)] = false := by decide
theorem test_memory_wf_refuses_repeat : Memory.wf [(5, 0#8), (5, 1#8)] = false := by decide
theorem test_access_refuses_misaligned_offset : refusesAccess (issueAccess (.regRead 0x02) base) = true := by decide
theorem test_access_refuses_offset_above_map : refusesAccess (issueAccess (.regWrite 0x80 1#32) base) = true := by decide
theorem test_access_refuses_register_byte : refusesAccess (issueAccess (.regOtherWidth 0x04) base) = true := by decide
theorem test_access_refuses_memory_address : refusesAccess (issueAccess (.memWrite 256 0#8) base) = true := by decide
theorem test_access_refuses_memory_word : refusesAccess (issueAccess (.memOtherWidth 0) base) = true := by decide
theorem test_access_faults_on_unwritten_byte : faults (issueAccess (.memRead 0) base) = true := by decide

/-! ## Decoding: OPC is bits 3..0 -/

theorem test_decode_nop : decodeWord 0b00000000000000000000000000000000#32 = .nop := by decide
theorem test_decode_crcVal : decodeWord 0b00000000000000000000000000000001#32 = .crcVal := by decide
theorem test_decode_crcRange : decodeWord 0b00000000000000000000000000000010#32 = .crcRange := by decide
theorem test_decode_hdrNew : decodeWord 0b00000000000000000000000000000011#32 = .hdrNew := by decide
theorem test_decode_hdrSetCrc : decodeWord 0b00000000000000000000000000000100#32 = .hdrSetCrc := by decide
theorem test_decode_hdrChecksum : decodeWord 0b00000000000000000000000000000101#32 = .hdrChecksum := by decide
theorem test_decode_hdrLoad : decodeWord 0b00000000000000000000000000000110#32 = .hdrLoad := by decide
theorem test_decode_hdrStore : decodeWord 0b00000000000000000000000000000111#32 = .hdrStore := by decide
theorem test_decode_pktAsm : decodeWord 0b00000000000000000000000000001000#32 = .pktAsm := by decide
theorem test_decode_pktDis : decodeWord 0b00000000000000000000000000001001#32 = .pktDis := by decide
theorem test_decode_reservedAB : decodeWord 0b00000000000000000000000000001011#32 = .reservedAB 0b1011#4 := by decide
theorem test_decode_reservedCF : decodeWord 0b00000000000000000000000000001101#32 = .reservedCF 0b1101#4 := by decide
theorem test_decode_ignores_upper_bits : decodeWord 0b11111111111111111111111111110000#32 = .nop := by decide
theorem test_decodeBytes_takes_four : decodeBytes [0xFA#8, 0#8, 0#8, 0#8] = .instr (.reservedAB 0xA#4) := by decide
theorem test_decodeBytes_refuses_three : decodeBytes [0#8, 0#8, 0#8] = .rejected (.notFourBytes 3) := by decide
theorem test_decodeTableWord : decodeTableWord 32 0x8 = some .pktAsm ∧ decodeTableWord 64 0x8 = none := by decide
theorem test_encode_pktDis : encode .pktDis = 0x00000009#32 := by decide
theorem test_fetchWord_runs_the_command :
    goesOn (step (State.reset.withFetchWord 32 0x9)) (fun t => t.status == 0x13#5) = true := by decide

/-! ## The commands (95_test_vectors.md 2.1 to 2.6) -/

theorem test_nop : goesOn (exec .nop base) (fun t => t.status == 0x10#5 && t.hdr == 0#16) = true := by decide

theorem test_crcVal_pads_first_nibble :
    goesOn (exec .crcVal { base with crcValueLo := 0x1F#32, crcBits := 5#7 })
      (fun t => t.crcResult == 1#4 && t.status == 0x10#5) = true := by decide

theorem test_crcVal_takes_high_word :
    goesOn (exec .crcVal { base with crcStart := 5#4, crcValueHi := 0x01234567#32, crcValueLo := 0x89ABCDEF#32, crcBits := 64#7 })
      (fun t => t.crcResult == 3#4) = true := by decide

theorem test_crcRange_two_bytes :
    goesOn (exec .crcRange (withBytes 0 [0xA5#8, 0x05#8] { base with srcLen := 2#32 }))
      (fun t => t.crcResult == 5#4 && t.status == 0x10#5) = true := by decide

theorem test_crcRange_does_not_wrap :
    goesOn (exec .crcRange { base with crcStart := 4#4, srcAddr := 0xFFFFFFFF#32, srcLen := 2#32 })
      (fun t => t.crcResult == 0#4 && t.status == 0x1B#5) = true := by decide

theorem test_hdrNew : goesOn (exec .hdrNew { base with nameLen := 4#32, msgLen := 11#32 })
    (fun t => t.hdr == 0x05A5#16 && hdrFields t.hdr == 0x000B0405#32) = true := by decide

theorem test_hdrNew_does_not_truncate_lengths :
    goesOn (exec .hdrNew { base with nameLen := 1#32, msgLen := 32#32, hdr := 0x1234#16 })
      (fun t => t.hdr == 0x1234#16 && t.status == 0x15#5) = true := by decide

theorem test_hdrSetCrc : goesOn (exec .hdrSetCrc { base with hdr := 0x05A5#16, crcResult := 0xD#4 })
    (fun t => t.hdr == 0xD5A5#16) = true := by decide

theorem test_hdrChecksum_ignores_stored_field : goesOn (exec .hdrChecksum { base with hdr := 0xD5A5#16 })
    (fun t => t.crcResult == 5#4 && t.hdr == 0xD5A5#16) = true := by decide

theorem test_hdrChecksum_both_bytes : goesOn (exec .hdrChecksum { base with hdr := 0x0FFD#16 })
    (fun t => t.crcResult == 0xB#4) = true := by decide

theorem test_hdrLoad : goesOn (exec .hdrLoad (withBytes 64 [0xA5#8, 0xD5#8] { base with srcAddr := 64#32, srcLen := 2#32 }))
    (fun t => t.hdr == 0xD5A5#16) = true := by decide

theorem test_hdrLoad_range_before_length : goesOn (exec .hdrLoad { base with srcAddr := 0xFFFFFFFF#32 })
    (fun t => t.status == 0x13#5) = true := by decide

theorem test_hdrStore_low_byte_first : goesOn (exec .hdrStore { base with hdr := 0xD5A5#16, dstAddr := 254#32 })
    (fun t => t.mem == [(254, 0xA5#8), (255, 0xD5#8)]) = true := by decide

theorem test_hdrStore_last_address : goesOn (exec .hdrStore { base with hdr := 0xD5A5#16, dstAddr := 255#32 })
    (fun t => t.mem == [] && t.status == 0x1B#5) = true := by decide

/-- The name "Name" at 0 and the message "Lorem ipsum" at 16, to be laid out at 64 (95_test_vectors.md, program P2). -/
def asmState : State :=
  withBytes 16 [0x4C#8, 0x6F#8, 0x72#8, 0x65#8, 0x6D#8, 0x20#8, 0x69#8, 0x70#8, 0x73#8, 0x75#8, 0x6D#8]
    (withBytes 0 [0x4E#8, 0x61#8, 0x6D#8, 0x65#8]
      { base with nameLen := 4#32, msgAddr := 16#32, msgLen := 11#32, dstAddr := 64#32 })

/-- The packet of 95_test_vectors.md E1. -/
def packetE1 : List Byte :=
  [0xA5#8, 0xD5#8, 0x4E#8, 0x61#8, 0x6D#8, 0x65#8, 0x4C#8, 0x6F#8, 0x72#8, 0x65#8, 0x6D#8, 0x20#8, 0x69#8, 0x70#8, 0x73#8,
   0x75#8, 0x6D#8]

/-- The packet E1 at 64, to be split. -/
def disState : State := withBytes 64 packetE1 { base with srcAddr := 64#32, srcLen := 17#32 }

theorem test_pktAsm : goesOn (exec .pktAsm asmState) (fun t =>
    t.mem.readBytes 64 17 == some packetE1 && t.hdr == 0xD5A5#16 && t.crcResult == 0xD#4 && t.resSize == 17#32 &&
      t.resNameAddr == 0x42#32 && t.resMsgAddr == 0x46#32 && t.resMsgLen == 11#32) = true := by decide +kernel

theorem test_pktAsm_name_check_first : goesOn (exec .pktAsm { base with nameLen := 16#32 })
    (fun t => t.status == 0x12#5) = true := by decide

theorem test_pktDis : goesOn (exec .pktDis disState) (fun t =>
    t.status == 0x10#5 && hdrFields t.hdr == 0x0D0B0405#32 && t.resNameAddr == 0x42#32 && t.resMsgAddr == 0x46#32 &&
      t.resMsgLen == 11#32 && t.resSize == 17#32) = true := by decide +kernel

theorem test_pktDis_checksum : goesOn (exec .pktDis (withBytes 80 [0x6C#8] disState)) (fun t =>
    t.status == 0x17#5 && t.resSize == 0#32) = true := by decide +kernel

theorem test_reservedAB : goesOn (exec (decodeWord 0xFA#32) base) (fun t => t.status == 0x1C#5) = true := by decide

theorem test_reservedCF : goesOn (exec (decodeWord 0xF#32) base) (fun t => t.status == 0x1C#5) = true := by decide

/-! ## Registers (95_test_vectors.md 2.2, 2.4, 2.8) -/

theorem test_crcBits_keeps_seven_bits : goesOn (issueAccess (.regWrite 0x0C 128#32) base) (fun t => t.crcBits == 0#7) = true := by
  decide
theorem test_hdr_keeps_sixteen_bits : goesOn (issueAccess (.regWrite 0x38 0x12345#32) base)
    (fun t => regRead .hdr t == 0x2345#32 && regRead .hdrFields t == 0x02060805#32) = true := by decide
theorem test_memsize_reads_256 : regRead .memSize base = 0x100#32 := by decide

/-! ## Witnesses: states and operands that meet the hypotheses of each statement -/

/-- A region holds the bytes that a check reads from it. -/
theorem holds_of_reads {m : Memory} {a : Nat} {bs : List Byte} (h : (m.readBytes a bs.length == some bs) = true) :
    m.holds a bs := Memory.holds_of_readBytes (beq_iff_eq.1 h)

theorem witness_DecodeEncodeAgree : Instr.wf .pktDis = true ∧ (Instr.reservedAB 0xA#4).wf = true ∧
    (Instr.reservedAB 0xB#4).wf = true ∧ (Instr.reservedCF 0xC#4).wf = true ∧ (Instr.reservedCF 0xF#4).wf = true := by decide

theorem witness_EveryWordSelectsOneRow : (opcodeTable[0]?).isSome = true ∧ (opcodeTable[11]?).isSome = true := by decide

theorem witness_CommandWriteRunsDecodedCommand :
    ({ base with pending := [.access (.regWrite 0x00 9#32)] } : State).pending = .access (.regWrite 0x00 9#32) :: [] := rfl

theorem witness_OnlyCmdWriteStartsCommand :
    (∃ (s : State) (e : HostEvent) (es : List HostEvent) (v : Word), s.pending = e :: es ∧ e = .access (.regWrite 0x00 v)) ∧
    ∃ (s : State) (e : HostEvent) (es : List HostEvent) (t : State), s.pending = e :: es ∧
      (∀ v, e ≠ .access (.regWrite 0x00 v)) ∧ e ≠ .reset ∧ step s = .next t :=
  ⟨⟨{ base with pending := [.access (.regWrite 0x00 1#32)] }, _, _, _, rfl, rfl⟩,
    { base with pending := [.access (.regWrite 0x04 1#32)] }, _, _, _, rfl, by simp, by simp, rfl⟩

theorem witness_AccessSideEffects :
    (∃ t, issueAccess (.regRead 0x7C) base = .next t) ∧ (∃ t, issueAccess (.memRead 64) disState = .next t) ∧
    (∃ t, 0x04 ≠ 0x00 ∧ issueAccess (.regWrite 0x04 1#32) base = .next t) ∧
    (∃ t, 0x38 ≠ 0x00 ∧ issueAccess (.regWrite 0x38 1#32) base = .next t ∧ regOffset .hdrFields ≠ 0x38) ∧
    ∃ t, issueAccess (.memWrite 255 1#8) base = .next t :=
  ⟨⟨_, rfl⟩, (next_of_goesOn (check := fun _ => true) (by decide)).imp fun _ h => h.1, ⟨_, by decide, rfl⟩,
    ⟨_, by decide, rfl, by decide⟩, ⟨_, rfl⟩⟩

theorem witness_RegAccessRefusedExactlyOffSlots : (0x00 % 4 = 0 ∧ 0x00 ≤ 0x7C) ∧ (0x7C % 4 = 0 ∧ 0x7C ≤ 0x7C) ∧
    ¬(0x80 % 4 = 0 ∧ 0x80 ≤ 0x7C) ∧ ¬(0x7D % 4 = 0 ∧ 0x7D ≤ 0x7C) := by decide

theorem witness_HostMemAccess : (64 < disState.memSize ∧ disState.mem.read 64 = some 0xA5#8) ∧
    (255 < base.memSize ∧ base.mem.read 255 = none) ∧ base.memSize ≤ 256 := by decide

theorem witness_StepsRunHostProgram : base.pending = [] := rfl

theorem witness_PseudoCrc4ComputesCrc : (0#32).toNat ≤ 64 ∧ (64#32).toNat ≤ 64 := by decide

theorem witness_RegisterMapSlots : slotAt 0x00 = some (.named .cmd) ∧ slotAt 0x50 = some (.named .memSize) := by decide

theorem witness_ReservedOffsetsReadZero : (0x54 ≤ 0x54 ∧ 0x54 ≤ 0x7C ∧ 0x54 % 4 = 0) ∧
    (0x54 ≤ 0x7C ∧ 0x7C ≤ 0x7C ∧ 0x7C % 4 = 0) := by decide

theorem witness_HostWriteKeepsLiveBits : regKind .cmd = .writeOnly ∧
    regKind .crcBits = .readWrite ∧ regKind .status = .readOnly ∧
    regKind .memSize = .constant := by decide

theorem witness_MemSizeRegisterIsConstant : ∃ t, step base = .next t := ⟨_, rfl⟩

theorem witness_ResetEventResetsBlock : ({ disState with pending := [.reset] } : State).pending = .reset :: [] := rfl

theorem witness_IdleStepChangesNothing : disState.pending = [] := rfl

theorem witness_ReservedOpcodesRaiseIllegalCommand : 0xA ≤ ((0xFA#32).extractLsb' 0 4).toNat ∧
    0xA ≤ ((0xF#32).extractLsb' 0 4).toNat := by decide

theorem witness_CrcValWritesCrc4 : ({ base with crcBits := 64#7 } : State).crcBits.toNat ≤ 64 ∧
    64 < ({ base with crcBits := 65#7 } : State).crcBits.toNat := by decide

theorem witness_Crc4FoldsNibblesMostSignificantFirst : ∃ bits : Nat, bits = 64 ∧ bits ≤ 64 := ⟨64, rfl, by decide⟩

theorem witness_CrcEqualsBitSerialRegister : ∃ bits : Nat, bits = 63 ∧ bits ≤ 64 := ⟨63, rfl, by decide⟩

theorem witness_ByteAlignedValueFoldsItsBytes : (∃ k : Nat, k = 1 ∧ 1 ≤ k ∧ k ≤ 8) ∧ ∃ k : Nat, k = 8 ∧ 1 ≤ k ∧ k ≤ 8 :=
  ⟨⟨1, by decide⟩, ⟨8, by decide⟩⟩

theorem witness_CrcTableLinearAndDetectsNibbleErrors : crcT 3#4 = crcT 3#4 ∧ 1#4 ^^^ 2#4 = 5#4 ^^^ 6#4 ∧
    (((0x41#8).extractLsb' 0 4 = (0x42#8).extractLsb' 0 4) ↔ ¬((0x41#8).extractLsb' 4 4 = (0x42#8).extractLsb' 4 4)) ∧
    (((0x41#8).extractLsb' 0 4 = (0x51#8).extractLsb' 0 4) ↔ ¬((0x41#8).extractLsb' 4 4 = (0x51#8).extractLsb' 4 4)) := by
  decide

theorem witness_CrcRangeFoldsMemory :
    (∃ (s : State) (bytes : List Byte), s.srcLen.toNat = bytes.length ∧
      (bytes.length = 0 ∨ s.srcAddr.toNat + bytes.length ≤ s.memSize) ∧ s.mem.holds s.srcAddr.toNat bytes) ∧
    (∃ s : State, s.srcLen.toNat = ([] : List Byte).length ∧ s.srcAddr = 0xFFFFFFFF#32 ∧
      s.mem.holds s.srcAddr.toNat []) ∧
    (∃ s : State, s.srcLen.toNat ≠ 0 ∧ s.memSize < s.srcAddr.toNat + s.srcLen.toNat) ∧
    ∃ s : State, s.srcAddr.toNat + s.srcLen.toNat ≤ s.memSize ∧
      ∃ i, i < s.srcLen.toNat ∧ s.mem.read (s.srcAddr.toNat + i) = none :=
  ⟨⟨withBytes 255 [0x33#8] { base with srcAddr := 255#32, srcLen := 1#32 }, [0x33#8], by decide, by decide,
      holds_of_reads (by decide)⟩,
    ⟨{ base with srcAddr := 0xFFFFFFFF#32 }, by decide, rfl, Memory.holds_nil _ _⟩,
    ⟨{ base with srcAddr := 256#32, srcLen := 1#32 }, by decide, by decide⟩,
    { base with srcLen := 1#32 }, by decide, 0, by decide, by decide⟩

theorem witness_HdrNewPacksLengths :
    (let s : State := { base with nameLen := 15#32, msgLen := 31#32 }
     1 ≤ s.nameLen.toNat ∧ s.nameLen.toNat ≤ 15 ∧ 1 ≤ s.msgLen.toNat ∧ s.msgLen.toNat ≤ 31) ∧
    15 < ({ base with nameLen := 16#32, msgLen := 1#32 } : State).nameLen.toNat ∧
    31 < ({ base with nameLen := 1#32, msgLen := 32#32 } : State).msgLen.toNat := by decide

theorem witness_HeaderFieldsTileHeader : ∃ f n m c : Nat, (f ≤ 7 ∧ n ≤ 15 ∧ m ≤ 31 ∧ c ≤ 15) ∧
    (f, n, m, c) = (7, 15, 31, 15) := ⟨7, 15, 31, 15, by decide, rfl⟩

theorem witness_HdrLoadReadsTwoBytes :
    (let s : State := { base with srcAddr := 255#32, srcLen := 2#32 }
     s.srcLen.toNat ≠ 0 ∧ s.memSize < s.srcAddr.toNat + s.srcLen.toNat) ∧
    (let s : State := { base with srcAddr := 255#32, srcLen := 1#32 }
     (s.srcLen.toNat = 0 ∨ s.srcAddr.toNat + s.srcLen.toNat ≤ s.memSize) ∧ s.srcLen.toNat < 2) ∧
    (let s : State := withBytes 254 [0xA5#8, 0xD5#8] { base with srcAddr := 254#32, srcLen := 2#32 }
     s.srcAddr.toNat + s.srcLen.toNat ≤ s.memSize ∧ 2 ≤ s.srcLen.toNat ∧
       s.mem.read s.srcAddr.toNat = some 0xA5#8 ∧ s.mem.read (s.srcAddr.toNat + 1) = some 0xD5#8) ∧
    (let s : State := withBytes 64 [0xA5#8] { base with srcAddr := 64#32, srcLen := 2#32 }
     s.srcAddr.toNat + s.srcLen.toNat ≤ s.memSize ∧ 2 ≤ s.srcLen.toNat ∧
       (s.mem.read s.srcAddr.toNat = none ∨ s.mem.read (s.srcAddr.toNat + 1) = none)) := by decide

theorem witness_HdrStoreWritesTwoBytes :
    (let s : State := { base with dstAddr := 254#32 }; s.dstAddr.toNat + 2 ≤ s.memSize) ∧
    (let s : State := { base with dstAddr := 255#32 }; s.memSize < s.dstAddr.toNat + 2) := by decide

/-- The name "A" at 0 and the message "x" at 16, to be laid out at 252 (95_test_vectors.md 2.5). -/
def smallAsm : State :=
  withBytes 16 [0x78#8] (withBytes 0 [0x41#8] { base with nameLen := 1#32, msgAddr := 16#32, msgLen := 1#32, dstAddr := 252#32 })

/-- The packet of "A" and "x" at 252, to be split. -/
def smallDis : State := withBytes 252 [0x8D#8, 0xA0#8, 0x41#8, 0x78#8] { base with srcAddr := 252#32, srcLen := 4#32 }

theorem witness_PktAsmBuildsPacket : ∃ (s : State) (name chunk : List Byte),
    s.nameLen.toNat = name.length ∧ 1 ≤ name.length ∧ name.length ≤ 15 ∧ 1 ≤ s.msgLen.toNat ∧
    chunk.length = min s.msgLen.toNat 31 ∧ s.nameAddr.toNat + name.length ≤ s.memSize ∧
    s.msgAddr.toNat + chunk.length ≤ s.memSize ∧ s.dstAddr.toNat + (2 + name.length + chunk.length) ≤ s.memSize ∧
    s.mem.holds s.nameAddr.toNat name ∧ s.mem.holds s.msgAddr.toNat chunk :=
  ⟨smallAsm, [0x41#8], [0x78#8], by decide, by decide, by decide, by decide, by decide, by decide, by decide, by decide,
    holds_of_reads (by decide), holds_of_reads (by decide)⟩

theorem witness_PktAsmChecksInOrder :
    base.nameLen.toNat = 0 ∧ 15 < ({ smallAsm with nameLen := 16#32 } : State).nameLen.toNat ∧
    (let s : State := { smallAsm with msgLen := 0#32 }
     1 ≤ s.nameLen.toNat ∧ s.nameLen.toNat ≤ 15 ∧ s.msgLen.toNat = 0) ∧
    (let s : State := { smallAsm with dstAddr := 253#32 }
     1 ≤ s.nameLen.toNat ∧ s.nameLen.toNat ≤ 15 ∧ 1 ≤ s.msgLen.toNat ∧
       s.memSize < s.dstAddr.toNat + (2 + s.nameLen.toNat + min s.msgLen.toNat 31)) ∧
    (let s : State := { smallAsm with msgAddr := 17#32 }
     1 ≤ s.nameLen.toNat ∧ s.nameLen.toNat ≤ 15 ∧ 1 ≤ s.msgLen.toNat ∧ s.nameAddr.toNat + s.nameLen.toNat ≤ s.memSize ∧
       s.msgAddr.toNat + min s.msgLen.toNat 31 ≤ s.memSize ∧
       s.dstAddr.toNat + (2 + s.nameLen.toNat + min s.msgLen.toNat 31) ≤ s.memSize ∧ 0 < min s.msgLen.toNat 31 ∧
       s.mem.read (s.msgAddr.toNat + 0) = none) := by decide

theorem witness_PktDisSplitsWellFormedPacket : ∃ (s : State) (b0 b1 : Byte) (name chunk : List Byte) (h : Header),
    h.toNat = b0.toNat + 256 * b1.toNat ∧ (getFlag h).toNat = 5 ∧
    (getNameLen h).toNat = name.length ∧ 1 ≤ name.length ∧ (getMsgLen h).toNat = chunk.length ∧ 1 ≤ chunk.length ∧
    getCrc4 h = crc4Range 0#4 ([b0, b1 &&& 0x0F#8] ++ name ++ chunk) ∧
    2 + name.length + chunk.length ≤ s.srcLen.toNat ∧ s.srcAddr.toNat + s.srcLen.toNat ≤ s.memSize ∧
    s.mem.holds s.srcAddr.toNat ([b0, b1] ++ name ++ chunk) :=
  ⟨smallDis, 0x8D#8, 0xA0#8, [0x41#8], [0x78#8], 0xA08D#16, by decide, by decide, by decide, by decide, by decide, by decide,
    by decide, by decide, by decide, holds_of_reads (by decide)⟩

theorem witness_PktDisChecksInOrder_early :
    (let s : State := { smallDis with srcAddr := 253#32 }
     s.srcLen.toNat ≠ 0 ∧ s.memSize < s.srcAddr.toNat + s.srcLen.toNat) ∧
    (let s : State := { base with srcAddr := 0xFFFFFFFF#32 }
     (s.srcLen.toNat = 0 ∨ s.srcAddr.toNat + s.srcLen.toNat ≤ s.memSize) ∧ s.srcLen.toNat < 2) ∧
    (let s : State := { base with srcLen := 2#32 }
     s.srcAddr.toNat + s.srcLen.toNat ≤ s.memSize ∧ 2 ≤ s.srcLen.toNat ∧ s.mem.read s.srcAddr.toNat = none) ∧
    (let s : State := withBytes 252 [0x8C#8] smallDis
     s.srcAddr.toNat + s.srcLen.toNat ≤ s.memSize ∧ 2 ≤ s.srcLen.toNat ∧ s.mem.read s.srcAddr.toNat = some 0x8C#8 ∧
       s.mem.read (s.srcAddr.toNat + 1) = some 0xA0#8 ∧ (0xA08C#16).toNat = (0x8C#8).toNat + 256 * (0xA0#8).toNat ∧
       (getFlag 0xA08C#16).toNat ≠ 5) ∧
    (let s : State := withBytes 252 [0x85#8] smallDis
     s.srcAddr.toNat + s.srcLen.toNat ≤ s.memSize ∧ 2 ≤ s.srcLen.toNat ∧ s.mem.read s.srcAddr.toNat = some 0x85#8 ∧
       s.mem.read (s.srcAddr.toNat + 1) = some 0xA0#8 ∧ (0xA085#16).toNat = (0x85#8).toNat + 256 * (0xA0#8).toNat ∧
       (getFlag 0xA085#16).toNat = 5 ∧ getNameLen 0xA085#16 = 0#4) := by decide

theorem witness_PktDisChecksInOrder_late :
    ((getFlag 0xA08D#16).toNat = 5 ∧ getNameLen 0xA08D#16 ≠ 0#4 ∧ getMsgLen 0xA08D#16 ≠ 0#5 ∧
      (0xA08D#16).toNat = (0x8D#8).toNat + 256 * (0xA0#8).toNat) ∧
    (let s : State := { smallDis with srcLen := 3#32 }
     s.mem.read s.srcAddr.toNat = some 0x8D#8 ∧ s.mem.read (s.srcAddr.toNat + 1) = some 0xA0#8 ∧
       s.srcAddr.toNat + s.srcLen.toNat ≤ s.memSize ∧ 2 ≤ s.srcLen.toNat ∧
       s.srcLen.toNat < 2 + (getNameLen 0xA08D#16).toNat + (getMsgLen 0xA08D#16).toNat) ∧
    (let s : State := withBytes 252 [0x8D#8, 0xA0#8, 0x41#8] { base with srcAddr := 252#32, srcLen := 4#32 }
     s.mem.read s.srcAddr.toNat = some 0x8D#8 ∧ s.mem.read (s.srcAddr.toNat + 1) = some 0xA0#8 ∧
       s.srcAddr.toNat + s.srcLen.toNat ≤ s.memSize ∧
       2 + (getNameLen 0xA08D#16).toNat + (getMsgLen 0xA08D#16).toNat ≤ s.srcLen.toNat ∧
       1 < (getNameLen 0xA08D#16).toNat + (getMsgLen 0xA08D#16).toNat ∧ s.mem.read (s.srcAddr.toNat + 2 + 1) = none) ∧
    (let s : State := withBytes 255 [0x79#8] smallDis
     s.mem.read s.srcAddr.toNat = some 0x8D#8 ∧ s.mem.read (s.srcAddr.toNat + 1) = some 0xA0#8 ∧
       s.srcAddr.toNat + s.srcLen.toNat ≤ s.memSize ∧
       2 + (getNameLen 0xA08D#16).toNat + (getMsgLen 0xA08D#16).toNat ≤ s.srcLen.toNat ∧
       [0x41#8, 0x79#8].length = (getNameLen 0xA08D#16).toNat + (getMsgLen 0xA08D#16).toNat ∧
       s.mem.readBytes (s.srcAddr.toNat + 2) 2 = some [0x41#8, 0x79#8] ∧
       crc4Range 0#4 ([0x8D#8, 0xA0#8 &&& 0x0F#8] ++ [0x41#8, 0x79#8]) ≠ getCrc4 0xA08D#16) := by decide +kernel

theorem witness_FailingCommandChangesOnlyStatus : ∃ t, exec .hdrNew base = .next t ∧ (t.err != 0#4) = true :=
  next_of_goesOn (by decide)

theorem witness_CommandStatusIsDoneWithWrittenCode : ∃ t, exec .nop base = .next t := ⟨_, rfl⟩

theorem witness_CommandsWriteOnlyTheirTargets :
    (∃ t, exec .crcVal base = .next t ∧ Instr.crcVal ∉ [.hdrStore, .pktAsm]) ∧
    (∃ t, exec .hdrStore base = .next t ∧ Instr.hdrStore ∉ [.crcVal, .crcRange, .hdrChecksum, .pktAsm, .pktDis]) ∧
    ∃ t, exec .pktAsm smallAsm = .next t ∧ true = true :=
  ⟨⟨_, rfl, by decide⟩, ⟨_, rfl, by decide⟩, next_of_goesOn (check := fun _ => true) (by decide +kernel)⟩

theorem witness_CommandsStopOnlyAtUnwrittenBytes :
    (∃ s : State, s.memSize = 0 ∧ ∀ x, x < s.memSize → s.mem.read x ≠ none) ∧
    (∃ s : State, s.memSize = 1 ∧ ∀ x, x < s.memSize → s.mem.read x ≠ none) ∧
    Instr.hdrStore ∉ [.crcRange, .hdrLoad, .pktAsm, .pktDis] :=
  ⟨⟨State.afterReset 0 [] [], rfl, fun x h => absurd h (Nat.not_lt_zero x)⟩,
    ⟨withBytes 0 [7#8] (State.afterReset 1 [] []), rfl, by
      intro x h
      obtain rfl : x = 0 := Nat.lt_one_iff.1 h
      decide⟩, by decide⟩

theorem witness_StepKeepsWellFormed : (∃ t, disState.wf = true ∧ step disState = .next t) ∧
    ∃ (s t : State), s.wf = true ∧ s.pending = [.access (.regWrite 0x00 8#32)] ∧ step s = .next t := by
  refine ⟨⟨_, by decide +kernel, rfl⟩, ({ smallAsm with pending := [.access (.regWrite 0x00 8#32)] } : State), ?_⟩
  obtain ⟨t, h, -⟩ := next_of_goesOn (o := step { smallAsm with pending := [.access (.regWrite 0x00 8#32)] })
    (check := fun _ => true) (by decide +kernel)
  exact ⟨t, by decide +kernel, rfl, h⟩

theorem witness_ResetWellFormed : (∃ n : Nat, n = 48 ∧ 48 ≤ n ∧ n ≤ 2 ^ 32) ∧ ∃ n : Nat, n = 2 ^ 32 ∧ 48 ≤ n ∧ n ≤ 2 ^ 32 :=
  ⟨⟨48, rfl, by decide, by decide⟩, ⟨2 ^ 32, rfl, by decide, by decide⟩⟩

theorem witness_AssembledPacketDisassembles : ∃ s t u : State, s.memSize ≤ 2 ^ 32 ∧ exec .pktAsm s = .next t ∧ t.err = 0#4 ∧
    (∀ x, s.dstAddr.toNat ≤ x → x < s.dstAddr.toNat + t.resSize.toNat → u.mem.read x = t.mem.read x) ∧
    u.srcAddr = s.dstAddr ∧ t.resSize.toNat ≤ u.srcLen.toNat ∧ u.srcAddr.toNat + u.srcLen.toNat ≤ u.memSize := by
  obtain ⟨t, h, ht⟩ := next_of_goesOn (o := exec .pktAsm smallAsm)
    (check := fun t => t.err == 0#4 && t.resSize == 4#32 && t.memSize == 256) (by decide +kernel)
  simp only [Bool.and_eq_true, beq_iff_eq] at ht
  refine ⟨smallAsm, t, { t with srcAddr := 252#32, srcLen := 4#32 }, by decide, h, ht.1.1, fun _ _ _ => rfl, rfl, ?_, ?_⟩
  · rw [ht.1.2]
  · show 252 + 4 ≤ t.memSize
    rw [ht.2]

theorem witness_PktDisDetectsCorruption :
    (∃ t, exec .pktDis smallDis = .next t ∧ (t.err == 0#4 && t.resSize == smallDis.srcLen) = true) ∧
    (252 = smallDis.srcAddr.toNat ∧ smallDis.mem.read 252 = some 0x8D#8 ∧
      (0x8D#8).extractLsb' 3 5 = (0x8C#8).extractLsb' 3 5 ∧ ((0x8C#8).extractLsb' 0 3).toNat ≠ 5) ∧
    (253 = smallDis.srcAddr.toNat + 1 ∧ smallDis.mem.read 253 = some 0xA0#8 ∧
      (0xA0#8).extractLsb' 0 4 = (0xB0#8).extractLsb' 0 4 ∧ (0xA0#8).extractLsb' 4 4 ≠ (0xB0#8).extractLsb' 4 4) ∧
    (smallDis.srcAddr.toNat + 2 ≤ 254 ∧ 255 < smallDis.srcAddr.toNat + smallDis.srcLen.toNat ∧
      smallDis.mem.read 254 = some 0x41#8 ∧ smallDis.mem.read 255 = some 0x78#8 ∧
      (((0x78#8).extractLsb' 0 4 = (0x79#8).extractLsb' 0 4) ↔ ¬((0x78#8).extractLsb' 4 4 = (0x79#8).extractLsb' 4 4))) :=
  ⟨next_of_goesOn (by decide +kernel), by decide, by decide, by decide⟩

/-- The name "A" at 0 and the text "x" at 16. -/
def textState : State := withBytes 16 [0x78#8] (withBytes 0 [0x41#8] base)

theorem witness_HostEncodeIsPacketSequence : textState.memSize ≤ 2 ^ 32 ∧
    encodePre [0x41#8] [0x78#8] 0 16 252 textState = true ∧ 1 ≤ [0x41#8].length ∧ [0x41#8].length ≤ 15 ∧
    1 ≤ [0x78#8].length := by decide

theorem witness_HostEncodeChecksInOrder : encodePre [] [0x78#8] 0 16 128 textState = true ∧
    (encodePre (List.replicate 16 0x41#8) [] 32 16 128 (withBytes 32 (List.replicate 16 0x41#8) base) = true ∧
      15 < (List.replicate 16 0x41#8).length) ∧
    (encodePre [0x41#8] [] 0 16 128 textState = true ∧ 1 ≤ [0x41#8].length ∧ [0x41#8].length ≤ 15) := by decide +kernel

theorem witness_SegmentationAndEncodedSize : ∃ (name text c out : List Byte) (s' : State), 1 ≤ name.length ∧
    name.length ≤ 15 ∧ 1 ≤ text.length ∧ (textChunks text)[0]? = some c ∧ textState.memSize ≤ 2 ^ 32 ∧
    hostEncode name text 0 16 252 textState = .next (.returned out, s') := by
  have h : (match hostEncode [0x41#8] [0x78#8] 0 16 252 textState with
      | .next (.returned _, _) => true
      | _ => false) = true := by decide +kernel
  split at h
  · rename_i out s' e
    exact ⟨[0x41#8], [0x78#8], [0x78#8], out, s', by decide, by decide, by decide, by decide, by decide, e⟩
  · simp at h

/-- A buffer: the packet of "A" and "hi", then that of "B" and "yo" (95_test_vectors.md E4), at 100. -/
def twoSenders : State :=
  withBytes 100 [0x0D#8, 0xE1#8, 0x41#8, 0x68#8, 0x69#8, 0x0D#8, 0xB1#8, 0x42#8, 0x79#8, 0x6F#8] base

theorem witness_HostDecodeAcceptsPacketsOfOneName : ∃ (packets : List (List Byte)) (name : List Byte) (ba : Nat),
    twoSenders.memSize ≤ 2 ^ 32 ∧ packets ≠ [] ∧ (∀ p ∈ packets, packetWf p = true ∧ packetName p = name) ∧
    packets.flatten.length < 2 ^ 32 ∧ ba + packets.flatten.length ≤ twoSenders.memSize ∧
    twoSenders.mem.holds ba packets.flatten :=
  ⟨[[0x0D#8, 0xE1#8, 0x41#8, 0x68#8, 0x69#8]], [0x41#8], 100, by decide, by decide, by decide +kernel, by decide, by decide,
    holds_of_reads (by decide +kernel)⟩

theorem witness_HostRoundTrip : (textState.memSize ≤ 2 ^ 32 ∧ encodePre [0x41#8] [0x78#8] 0 16 252 textState = true ∧
      1 ≤ [0x41#8].length ∧ [0x41#8].length ≤ 15 ∧ 1 ≤ [0x78#8].length) ∧
    ∃ (out : List Byte) (s' : State), hostEncode [0x41#8] [0x78#8] 0 16 252 textState = .next (.returned out, s') ∧
      ∃ (v : State) (ba : Nat), v.memSize ≤ 2 ^ 32 ∧ ba + out.length ≤ v.memSize ∧ v.mem.holds ba out := by
  refine ⟨by decide, ?_⟩
  have h : (match hostEncode [0x41#8] [0x78#8] 0 16 252 textState with
      | .next (.returned out, s') => out.length == 4 && s'.memSize == 256 && s'.mem.readBytes 252 out.length == some out
      | _ => false) = true := by decide +kernel
  split at h
  · rename_i out s' e
    simp only [Bool.and_eq_true, beq_iff_eq] at h
    refine ⟨out, s', e, s', 252, ?_, ?_, Memory.holds_of_readBytes h.2⟩
    · rw [h.1.2]; decide
    · rw [h.1.1, h.1.2]
  · simp at h

theorem witness_OtherNameIsInconsistentSender : ∃ (packets : List (List Byte)) (name q rest : List Byte) (ba : Nat),
    twoSenders.memSize ≤ 2 ^ 32 ∧ packets ≠ [] ∧ (∀ p ∈ packets, packetWf p = true ∧ packetName p = name) ∧
    packetWf q = true ∧ packetName q ≠ name ∧ (packets.flatten ++ q ++ rest).length < 2 ^ 32 ∧
    ba + (packets.flatten ++ q ++ rest).length ≤ twoSenders.memSize ∧
    twoSenders.mem.holds ba (packets.flatten ++ q ++ rest) :=
  ⟨[[0x0D#8, 0xE1#8, 0x41#8, 0x68#8, 0x69#8]], [0x41#8], [0x0D#8, 0xB1#8, 0x42#8, 0x79#8, 0x6F#8], [], 100, by decide,
    by decide, by decide +kernel, by decide +kernel, by decide, by decide, by decide, holds_of_reads (by decide +kernel)⟩

theorem witness_FirstFailingPacketDecides : ∃ (packets : List (List Byte)) (name rest : List Byte) (ba : Nat) (t : State),
    twoSenders.memSize ≤ 2 ^ 32 ∧ (∀ p ∈ packets, packetWf p = true ∧ packetName p = name) ∧ 1 ≤ rest.length ∧
    (packets.flatten ++ rest).length < 2 ^ 32 ∧ ba + (packets.flatten ++ rest).length ≤ twoSenders.memSize ∧
    twoSenders.mem.holds ba (packets.flatten ++ rest) ∧
    exec .pktDis { twoSenders with
      srcAddr := BitVec.ofNat 32 (ba + packets.flatten.length), srcLen := BitVec.ofNat 32 rest.length } = .next t ∧
    t.err ≠ 0#4 := by
  obtain ⟨t, h, ht⟩ := next_of_goesOn (o := exec .pktDis { twoSenders with srcAddr := 105#32, srcLen := 1#32 })
    (check := fun t => t.err != 0#4) (by decide +kernel)
  exact ⟨[[0x0D#8, 0xE1#8, 0x41#8, 0x68#8, 0x69#8]], [0x41#8], [0x0D#8], 100, t, by decide, by decide +kernel, by decide,
    by decide, by decide, holds_of_reads (by decide +kernel), h, by simpa using ht⟩

end Sys2Proof.Tests
end

/-! SUPPORT. The model's invariant `State.wf`: what each update of the state needs to keep it, then that every command, every
access and every step keeps it, and that it holds right after reset. -/

namespace Sys2Proof.Machine

/-! ## Updates of fields that the invariant does not speak of -/

@[simp] theorem State.wf_withCrcResult (s : State) (c : Nibble) : (s.withCrcResult c).wf = s.wf := rfl

@[simp] theorem State.wf_withHdr (s : State) (h : Header) : (s.withHdr h).wf = s.wf := rfl

@[simp] theorem State.wf_recorded (s : State) (v : ReadValue) : (s.recorded v).wf = s.wf := rfl

@[simp] theorem State.wf_withPending (s : State) (es : List HostEvent) : (s.withPending es).wf = s.wf := rfl

/-- A host write reaches none of `STATUS`, the `RES_*` registers and `MEMSIZE` (10_state.md R24, R45). -/
@[simp] theorem State.wf_regWrite (r : Reg) (v : Word) (s : State) : (regWrite r v s).wf = s.wf := by
  cases r <;> rfl

/-! ## Updates of `STATUS`, MEM and the `RES_*` registers -/

theorem State.wf_withStatus {s : State} (hs : s.wf = true) {e : ErrCode} (he : e.raised ∨ e = .ok) :
    (s.withStatus e).wf = true := by
  obtain ⟨hsize, hmem, hbound, -, hres⟩ := (State.wf_iff s).1 hs
  exact (State.wf_iff _).2 ⟨hsize, hmem, hbound, statusLegal_statusOf he, hres⟩

theorem State.wf_withStatus_ok {s : State} (hs : s.wf = true) : (s.withStatus .ok).wf = true :=
  State.wf_withStatus hs (.inr rfl)

theorem State.wf_withMem_writeBytes {s : State} (hs : s.wf = true) {a : Nat} {bs : List Byte}
    (hb : a + bs.length ≤ s.memSize) : (s.withMem (s.mem.writeBytes a bs)).wf = true := by
  obtain ⟨hsize, hmem, hbound, hstatus, hres⟩ := (State.wf_iff s).1 hs
  exact (State.wf_iff _).2
    ⟨hsize, Memory.wf_writeBytes bs s.mem a hmem, State.memInBounds_withMem hbound a bs hb, hstatus, hres⟩

/-- The results of a packet of `2 + n + m` bytes at `a` (10_state.md R41 to R44). That it ends within MEM is why no address
wraps in its 32-bit register. -/
theorem State.wf_withResults {s : State} (hs : s.wf = true) {a n m : Nat} (hn : 1 ≤ n) (hn' : n ≤ 15) (hm : 1 ≤ m)
    (hm' : m ≤ 31) (hend : a + (2 + n + m) ≤ s.memSize) :
    (s.withResults (2 + n + m) (a + 2) (a + 2 + n) m).wf = true := by
  obtain ⟨⟨hlow, hhigh⟩, hmem, hbound, hstatus, -⟩ := (State.wf_iff s).1 hs
  refine (State.wf_iff _).2 ⟨⟨hlow, hhigh⟩, hmem, hbound, hstatus, decide_eq_true (.inr ?_)⟩
  simp only [State.withResults_resSize, State.withResults_resNameAddr, State.withResults_resMsgAddr,
    State.withResults_resMsgLen, State.withResults_memSize, Config.nameLenMax, Config.msgLenMax, Config.headerSize, BitVec.toNat_ofNat]
  omega

/-! ## Commands -/

/-- The shape of the commands' case lemmas: an error changes `STATUS` only (40_command.md R103), so what is left is the
command's own effect. -/
theorem State.wf_of_raised_or {s t : State} (hs : s.wf = true) {effect : Prop}
    (h : (∃ e : ErrCode, e.raised ∧ t = s.withStatus e) ∨ effect) (heffect : effect → t.wf = true) : t.wf = true := by
  obtain ⟨e, he, rfl⟩ | h := h
  · exact State.wf_withStatus hs (.inl he)
  · exact heffect h

/-- The lengths a well-formed header declares (42_header.md R143). -/
theorem headerWf_lengths {h : Header} (hw : headerWf h = true) :
    (1 ≤ (getNameLen h).toNat ∧ (getNameLen h).toNat ≤ 15) ∧ 1 ≤ (getMsgLen h).toNat ∧ (getMsgLen h).toNat ≤ 31 := by
  obtain ⟨-, hn, hm⟩ := of_decide_eq_true hw
  have hn0 : (getNameLen h).toNat ≠ 0 := fun e => hn (BitVec.eq_of_toNat_eq e)
  have hm0 : (getMsgLen h).toNat ≠ 0 := fun e => hm (BitVec.eq_of_toNat_eq e)
  have hn16 := (getNameLen h).isLt
  have hm32 := (getMsgLen h).isLt
  omega

theorem execPktAsm_keeps_wf {s t : State} (hs : s.wf = true) (h : execPktAsm s = .next t) : t.wf = true := by
  refine State.wf_of_raised_or hs (execPktAsm_cases h) ?_
  rintro ⟨name, chunk, hn, hn', hm, -, -, hdst, hname, hchunk, rfl⟩
  have hsize : s.asmSize = 2 + s.nameLen.toNat + s.chunkLen := rfl
  have hk : 1 ≤ s.chunkLen ∧ s.chunkLen ≤ 31 := by simp only [State.chunkLen, Config.msgLenMax]; omega
  have hlen : (packetBytes name chunk).length = s.asmSize := by
    rw [packetBytes_length, Memory.readBytes_length hname, Memory.readBytes_length hchunk, hsize]
  have hmem := State.wf_withMem_writeBytes hs (hlen ▸ hdst)
  rw [hsize] at hdst ⊢
  exact State.wf_withStatus_ok (State.wf_withResults (by simpa using hmem) hn hn' hk.1 hk.2 hdst)

theorem execPktDis_keeps_wf {s t : State} (hs : s.wf = true) (h : execPktDis s = .next t) : t.wf = true := by
  refine State.wf_of_raised_or hs (execPktDis_cases h) ?_
  rintro ⟨hd, -, hrange, -, hwf, hsrc, -, -, rfl⟩
  obtain ⟨⟨hn, hn'⟩, hm, hm'⟩ := headerWf_lengths hwf
  have hsize : declaredSize hd = 2 + (getNameLen hd).toNat + (getMsgLen hd).toNat := rfl
  rw [State.inRange_iff] at hrange
  rw [hsize] at hsrc ⊢
  have hend : s.srcAddr.toNat + (2 + (getNameLen hd).toNat + (getMsgLen hd).toNat) ≤ s.memSize := by omega
  exact State.wf_withStatus_ok (State.wf_withResults (by simpa using hs) hn hn' hm hm' hend)

theorem exec_keeps_wf {i : Instr} {s t : State} (hs : s.wf = true) (h : exec i s = .next t) : t.wf = true := by
  cases i with
  | nop => obtain rfl := Host.Outcome.next.inj h; exact State.wf_withStatus_ok hs
  | crcVal =>
    refine State.wf_of_raised_or hs (execCrcVal_cases h) ?_
    rintro ⟨-, rfl⟩
    exact State.wf_withStatus_ok (by simpa using hs)
  | crcRange =>
    refine State.wf_of_raised_or hs (execCrcRange_cases h) ?_
    rintro ⟨_, -, -, rfl⟩
    exact State.wf_withStatus_ok (by simpa using hs)
  | hdrNew =>
    refine State.wf_of_raised_or hs (execHdrNew_cases h) ?_
    rintro ⟨-, -, -, -, rfl⟩
    exact State.wf_withStatus_ok (by simpa using hs)
  | hdrSetCrc => obtain rfl := Host.Outcome.next.inj h; exact State.wf_withStatus_ok (by simpa using hs)
  | hdrChecksum => obtain rfl := Host.Outcome.next.inj h; exact State.wf_withStatus_ok (by simpa using hs)
  | hdrLoad =>
    refine State.wf_of_raised_or hs (execHdrLoad_cases h) ?_
    rintro ⟨_, -, -, -, rfl⟩
    exact State.wf_withStatus_ok (by simpa using hs)
  | hdrStore =>
    refine State.wf_of_raised_or hs (execHdrStore_cases h) ?_
    rintro ⟨hdst, rfl⟩
    exact State.wf_withStatus_ok (State.wf_withMem_writeBytes hs hdst)
  | pktAsm => exact execPktAsm_keeps_wf hs h
  | pktDis => exact execPktDis_keeps_wf hs h
  | reservedAB opc => obtain rfl := Host.Outcome.next.inj h; exact State.wf_withStatus hs (.inl (by simp [ErrCode.raised]))
  | reservedCF opc => obtain rfl := Host.Outcome.next.inj h; exact State.wf_withStatus hs (.inl (by simp [ErrCode.raised]))

/-! ## Events -/

theorem issueAccess_keeps_wf {a : HostAccess} {s t : State} (hs : s.wf = true) (h : issueAccess a s = .next t) :
    t.wf = true := by
  obtain ⟨v, -, hexec⟩ | ⟨r, v, -, -, rfl⟩ | ⟨off, v, -, -, rfl⟩ | ⟨x, b, hx, -, rfl⟩ | ⟨v, rfl⟩ := issueAccess_cases h
  · exact exec_keeps_wf hs hexec
  · simpa using hs
  · exact hs
  · exact State.wf_withMem_writeBytes (bs := [b]) hs hx
  · simpa using hs

theorem State.wf_afterReset {n : Nat} (hlow : 48 ≤ n) (hhigh : n ≤ 2 ^ 32) (p : List HostEvent) (q : List ReadValue) :
    (State.afterReset n p q).wf = true :=
  (State.wf_iff _).2 ⟨⟨hlow, hhigh⟩, rfl, rfl, rfl, decide_eq_true (.inl ⟨rfl, rfl, rfl, rfl⟩)⟩

theorem resetBlock_keeps_wf {s : State} (hs : s.wf = true) : (resetBlock s).wf = true := by
  obtain ⟨⟨hlow, hhigh⟩, -⟩ := (State.wf_iff s).1 hs
  exact State.wf_afterReset hlow hhigh s.pending s.reads

/-! ## The obligations -/

/-- Settles O46: idle, reset or one access, and of the accesses the commands, each by what it can do. -/
theorem stepKeepsWellFormed : Obligations.StepKeepsWellFormed := by
  intro s t hs h
  obtain ⟨-, rfl⟩ | ⟨es, -, rfl⟩ | ⟨a, es, -, haccess⟩ := step_cases h
  · exact hs
  · exact resetBlock_keeps_wf (by simpa using hs)
  · exact issueAccess_keeps_wf (by simpa using hs) haccess

/-- Settles O47. -/
theorem resetWellFormed : Obligations.ResetWellFormed :=
  ⟨State.wf_afterReset (by decide) (by decide) [] [], fun _ p q hlow hhigh => State.wf_afterReset hlow hhigh p q⟩

end Sys2Proof.Machine

/-! SUPPORT. The register map and the state (10_state.md): what each register reads as in every state, what a host write keeps of
it, and that no event changes `MEM_SIZE`. -/

namespace Sys2Proof.Machine

/-! ## A register narrower than its slot -/

/-- A register of `k` live bits, read into its slot, has no bit outside them (10_state.md R47). -/
theorem setWidth_and_live {k : Nat} (x : BitVec k) :
    x.setWidth 32 &&& (BitVec.allOnes k).setWidth 32 = x.setWidth 32 := by
  rw [← BitVec.setWidth_and, BitVec.and_allOnes]

/-- A word kept in a register of `k` live bits reads back as those bits of it. -/
theorem setWidth_setWidth_eq_and_live (k : Nat) (v : Word) :
    (v.setWidth k).setWidth 32 = v &&& (BitVec.allOnes k).setWidth 32 := by
  ext i hi
  simp [hi, Bool.and_comm]

theorem toNat_append_eq_add {m n : Nat} (x : BitVec m) (y : BitVec n) : (x ++ y).toNat = 2 ^ n * x.toNat + y.toNat := by
  rw [BitVec.toNat_append, Nat.shiftLeft_eq, Nat.mul_comm, ← Nat.two_pow_add_eq_or_of_lt y.isLt]

/-! ## `HDR_FIELDS` -/

/-- The lanes of `HDR_FIELDS` as one sum (10_state.md R40). -/
theorem hdrFields_toNat (h : Header) :
    (hdrFields h).toNat = (getFlag h).toNat + 2 ^ 8 * (getNameLen h).toNat + 2 ^ 16 * (getMsgLen h).toNat +
      2 ^ 24 * (getCrc4 h).toNat := by
  simp only [hdrFields, toNat_append_eq_add, BitVec.toNat_zero]
  omega

/-- The live bits of `HDR_FIELDS` are its four lanes (10_state.md R24, R40). -/
theorem regLive_hdrFields_getLsbD {i : Nat} (hi : i < 32) :
    (regLive .hdrFields).getLsbD i =
      decide (i < 3 ∨ 8 ≤ i ∧ i < 12 ∨ 16 ≤ i ∧ i < 21 ∨ 24 ≤ i ∧ i < 28) := by
  have mask : ∀ j : Fin 32, (regLive .hdrFields).getLsbD j =
      decide (j.val < 3 ∨ 8 ≤ j.val ∧ j.val < 12 ∨ 16 ≤ j.val ∧ j.val < 21 ∨ 24 ≤ j.val ∧ j.val < 28) := by decide
  exact mask ⟨i, hi⟩

theorem hdrFields_and_live (h : Header) : hdrFields h &&& regLive .hdrFields = hdrFields h := by
  apply BitVec.eq_of_getLsbD_eq
  intro i hi
  rw [BitVec.getLsbD_and, regLive_hdrFields_getLsbD hi, hdrFields_getLsbD]
  split_ifs <;> simp <;> omega

/-! ## Reads and writes of registers -/

/-- No register shows a bit outside its live bits (10_state.md R47). -/
theorem regRead_and_regLive (r : Reg) (s : State) : regRead r s &&& regLive r = regRead r s := by
  cases r with
  | cmd => exact BitVec.zero_and
  | status => exact setWidth_and_live s.status
  | crcStart => exact setWidth_and_live s.crcStart
  | crcBits => exact setWidth_and_live s.crcBits
  | crcResult => exact setWidth_and_live s.crcResult
  | hdr => exact setWidth_and_live s.hdr
  | hdrFields => exact hdrFields_and_live s.hdr
  | crcValueLo | crcValueHi | srcAddr | srcLen | nameAddr | nameLen | msgAddr | msgLen | dstAddr
  | resSize | resNameAddr | resMsgAddr | resMsgLen | memSize => exact BitVec.and_allOnes

theorem regRead_and_not_regLive (r : Reg) (s : State) : regRead r s &&& ~~~(regLive r) = 0#32 := by
  rw [← regRead_and_regLive, BitVec.and_assoc, BitVec.and_not_self]
  exact BitVec.and_zero

/-- An `RW` register keeps the live bits of what is written to it (10_state.md R47). -/
theorem regRead_regWrite {r : Reg} (hr : regKind r = .readWrite) (v : Word) (s : State) :
    regRead r (regWrite r v s) = v &&& regLive r := by
  cases r with
  | crcStart => exact setWidth_setWidth_eq_and_live 4 v
  | crcBits => exact setWidth_setWidth_eq_and_live 7 v
  | hdr => exact setWidth_setWidth_eq_and_live 16 v
  | crcValueLo | crcValueHi | srcAddr | srcLen | nameAddr | nameLen | msgAddr | msgLen | dstAddr =>
    exact BitVec.and_allOnes.symm
  | cmd | status | crcResult | hdrFields | resSize | resNameAddr | resMsgAddr | resMsgLen | memSize => cases hr

/-- An `R` or `C` register ignores writes (10_state.md R47). -/
theorem regWrite_of_unwritable {r : Reg} (hr : regKind r = .readOnly ∨ regKind r = .constant) (v : Word) (s : State) :
    regWrite r v s = s := by
  cases r with
  | cmd | status | crcResult | hdrFields | resSize | resNameAddr | resMsgAddr | resMsgLen | memSize => rfl
  | crcStart | crcBits | crcValueLo | crcValueHi | srcAddr | srcLen | nameAddr | nameLen | msgAddr | msgLen | dstAddr
  | hdr => simp [regKind] at hr

/-- `CMD` is the only write-only register, so a write of a register of another kind is no command. -/
theorem issueAccess_regWrite_of_kind {r : Reg} (hr : regKind r ≠ .writeOnly) (v : Word) (s : State) :
    issueAccess (.regWrite (regOffset r) v) s = .next (regWrite r v s) :=
  issueAccess_regWrite r (fun e => hr (e ▸ rfl)) v s

theorem issueAccess_regWrite_of_unwritable {r : Reg} (hr : regKind r = .readOnly ∨ regKind r = .constant) (v : Word)
    (s : State) : issueAccess (.regWrite (regOffset r) v) s = .next s := by
  rw [issueAccess_regWrite_of_kind (by rcases hr with h | h <;> simp [h]), regWrite_of_unwritable hr]

theorem regRead_of_writeOnly {r : Reg} (hr : regKind r = .writeOnly) (s : State) : regRead r s = 0#32 := by
  cases r with
  | cmd => rfl
  | status | crcStart | crcBits | crcValueLo | crcValueHi | crcResult | srcAddr | srcLen | nameAddr | nameLen | msgAddr
  | msgLen | dstAddr | hdr | hdrFields | resSize | resNameAddr | resMsgAddr | resMsgLen | memSize => cases hr

theorem regRead_afterReset (n : Nat) (p : List HostEvent) (q : List ReadValue) (r : Reg) :
    regRead r (State.afterReset n p q) = if r = .memSize then BitVec.ofNat 32 n else 0#32 := by
  cases r with
  | hdrFields => show hdrFields 0#16 = 0#32; decide
  | cmd | status | crcStart | crcBits | crcValueLo | crcValueHi | crcResult | srcAddr | srcLen | nameAddr | nameLen | msgAddr
  | msgLen | dstAddr | hdr | resSize | resNameAddr | resMsgAddr | resMsgLen | memSize => rfl

/-! ## `MEM_SIZE` -/

@[simp] theorem regWrite_memSize (r : Reg) (v : Word) (s : State) : (regWrite r v s).memSize = s.memSize := by
  cases r <;> rfl

@[simp] theorem resetBlock_memSize (s : State) : (resetBlock s).memSize = s.memSize := rfl

theorem exec_memSize {i : Instr} {s t : State} (h : exec i s = .next t) : t.memSize = s.memSize := by
  obtain ⟨e, -, rfl⟩ | ⟨u, rfl, hu⟩ := exec_cases h
  · rfl
  · have hsize : u.memSize = s.memSize := by rw [hu]
    exact hsize

theorem issueAccess_memSize {a : HostAccess} {s t : State} (h : issueAccess a s = .next t) : t.memSize = s.memSize := by
  obtain ⟨v, -, hexec⟩ | ⟨r, v, -, -, rfl⟩ | ⟨off, v, -, -, rfl⟩ | ⟨x, b, -, -, rfl⟩ | ⟨v, rfl⟩ := issueAccess_cases h
  · exact exec_memSize hexec
  · exact regWrite_memSize r v s
  · rfl
  · rfl
  · rfl

theorem step_memSize {s t : State} (h : step s = .next t) : t.memSize = s.memSize := by
  obtain ⟨-, rfl⟩ | ⟨es, -, rfl⟩ | ⟨a, es, -, haccess⟩ := step_cases h
  · rfl
  · exact resetBlock_memSize (s.withPending es)
  · simpa using issueAccess_memSize haccess

/-! ## The obligations -/

/-- Settles O13: the live bits of each register, by its access kind. -/
theorem hostWriteKeepsLiveBits : Obligations.HostWriteKeepsLiveBits := by
  intro r s v
  refine ⟨regRead_and_not_regLive r s, fun hr => regRead_of_writeOnly hr s, ?_, fun hr => ?_,
    fun hr => issueAccess_regWrite_of_unwritable hr v s⟩
  · have zext {k : Nat} (hk : k ≤ 32) (x : BitVec k) : (x.setWidth 32).toNat = x.toNat := BitVec.toNat_setWidth_of_le hk
    exact ⟨zext (by decide) _, zext (by decide) _, zext (by decide) _, zext (by decide) _, zext (by decide) _,
      rfl, rfl, rfl, rfl, rfl, rfl, rfl, rfl, rfl, rfl, rfl, rfl, rfl⟩
  · exact ⟨regWrite r v s, issueAccess_regWrite_of_kind (by simp [hr]) v s, regRead_regWrite hr v s⟩

/-- Settles O14: the lanes of `HDR_FIELDS` and the getters of 42_header.md R142, both as numbers. -/
theorem hdrFieldsIsUnpackedHdr : Obligations.HdrFieldsIsUnpackedHdr := by
  intro s v
  refine ⟨?_, issueAccess_regWrite_of_unwritable (r := .hdrFields) (.inl rfl) v s,
    regWrite .hdr v s, issueAccess_regWrite .hdr (by decide) v s, BitVec.toNat_setWidth 16 v⟩
  show (hdrFields s.hdr).toNat = _
  rw [hdrFields_toNat, getFlag_toNat, getNameLen_toNat, getMsgLen_toNat, getCrc4_toNat]

/-- Settles O15: idle, reset or one access, and none of them writes `MEM_SIZE`. -/
theorem memSizeRegisterIsConstant : Obligations.MemSizeRegisterIsConstant := fun s =>
  ⟨BitVec.toNat_ofNat s.memSize 32, fun v => issueAccess_regWrite_of_unwritable (r := .memSize) (.inr rfl) v s,
    fun _ => step_memSize⟩

/-- Settles O11. -/
theorem registerMapSlots : Obligations.RegisterMapSlots :=
  ⟨slotAt_regOffset, by decide, fun _ _ => eq_regOffset_of_slotAt⟩

/-- Settles O12: these offsets are the reserved slots. -/
theorem reservedOffsetsReadZero : Obligations.ReservedOffsetsReadZero := by
  intro s off v hlow hhigh haligned
  have hslot : slotAt off = some .reserved := (slotAt_eq_reserved off).2 ⟨haligned, hlow, hhigh⟩
  exact (issueAccess_reserved hslot v s).symm

/-- Settles O17. -/
theorem resetStateRegisters : Obligations.ResetStateRegisters :=
  ⟨fun n p q r => ⟨regRead_afterReset n p q r, by rw [State.afterReset_hdr]; decide, fun _ => rfl⟩,
    Config.memSizeAtReset, by decide, rfl⟩

/-- Settles O44: each check and each effect of a command reads other fields, and each way it ends writes the whole of `STATUS`
(60_exceptions.md R232). -/
theorem statusIsNoOperand : Obligations.StatusIsNoOperand := by
  intro i s v
  cases i <;> rfl

end Sys2Proof.Machine

/-! SUPPORT. The host interface and its refusals (20_memory.md): which accesses get a step, that a command stops only at an
unwritten byte, and that the host's list `pending` takes no part in an access. -/

namespace Sys2Proof.Machine

/-! ## Commands stop only at unwritten bytes -/

/-- Some byte of MEM below `MEM_SIZE` is unwritten (20_memory.md R75). -/
def State.hasUnwritten (s : State) : Prop := ∃ x, x < s.memSize ∧ s.mem.read x = none

/-- `o` goes on, or it is the fault of a byte unwritten in `s`: the only ways a command run in `s` ends (60_exceptions.md R255,
`exec_goesOnOrUninit`). -/
def GoesOnOrUninit (s : State) (o : Host.Outcome State Fault Refusal) : Prop :=
  (∃ t, o = .next t) ∨ (o = .fault .uninitRead ∧ s.hasUnwritten)

theorem goesOnOrUninit_complete (s u : State) : GoesOnOrUninit s (complete u) := .inl ⟨_, rfl⟩

theorem goesOnOrUninit_raiseError (s u : State) (e : ErrCode) : GoesOnOrUninit s (raiseError e u) := .inl ⟨_, rfl⟩

theorem goesOnOrUninit_fault {s : State} (hs : s.hasUnwritten) : GoesOnOrUninit s (.fault .uninitRead) := .inr ⟨rfl, hs⟩

theorem State.hasUnwritten_of_readBytes {s : State} {a n : Nat} (hr : s.inRange a n = true)
    (hnone : s.mem.readBytes a n = none) : s.hasUnwritten := by
  obtain ⟨i, hi, hx⟩ := (Memory.readBytes_eq_none s.mem a n).1 hnone
  exact ⟨a + i, by rw [State.inRange_iff] at hr; omega, hx⟩

theorem State.hasUnwritten_of_readHeader {s : State} {a n : Nat} (hn : 2 ≤ n) (hr : s.inRange a n = true)
    (hnone : s.mem.readHeader a = none) : s.hasUnwritten := by
  rw [State.inRange_iff] at hr
  obtain h0 | h1 := (Memory.readHeader_eq_none s.mem a).1 hnone
  · exact ⟨a, by omega, h0⟩
  · exact ⟨a + 1, by omega, h1⟩

theorem execCrcRange_goesOnOrUninit (s : State) : GoesOnOrUninit s (execCrcRange s) := by
  unfold execCrcRange
  split_ifs with hr
  · split
    · next hnone => exact goesOnOrUninit_fault (State.hasUnwritten_of_readBytes hr hnone)
    · exact goesOnOrUninit_complete s _
  · exact goesOnOrUninit_raiseError s s _

theorem execHdrLoad_goesOnOrUninit (s : State) : GoesOnOrUninit s (execHdrLoad s) := by
  unfold execHdrLoad
  split_ifs with hr hlen
  · exact goesOnOrUninit_raiseError s s _
  · split
    · next hnone => exact goesOnOrUninit_fault (State.hasUnwritten_of_readHeader (Nat.le_of_not_lt hlen) hr hnone)
    · exact goesOnOrUninit_complete s _
  · exact goesOnOrUninit_raiseError s s _

theorem execPktAsm_goesOnOrUninit (s : State) : GoesOnOrUninit s (execPktAsm s) := by
  unfold execPktAsm
  split_ifs with hempty hlong hnomsg hr
  · exact goesOnOrUninit_raiseError s s _
  · exact goesOnOrUninit_raiseError s s _
  · exact goesOnOrUninit_raiseError s s _
  · simp only [Bool.and_eq_true] at hr
    obtain ⟨⟨hname, hmsg⟩, -⟩ := hr
    cases hn : s.mem.readBytes s.nameAddr.toNat s.nameLen.toNat with
    | none => exact goesOnOrUninit_fault (State.hasUnwritten_of_readBytes hname hn)
    | some name =>
      cases hm : s.mem.readBytes s.msgAddr.toNat s.chunkLen with
      | none => exact goesOnOrUninit_fault (State.hasUnwritten_of_readBytes hmsg hm)
      | some chunk => exact goesOnOrUninit_complete s _
  · exact goesOnOrUninit_raiseError s s _

/-- The rest of a packet that fits `SRC_LEN` is in range when the packet is (43_packet.md R175). -/
theorem State.inRange_body {s : State} {a n : Nat} {h : Header} (hr : s.inRange a n = true) (hsize : declaredSize h ≤ n) :
    s.inRange (a + 2) ((getNameLen h).toNat + (getMsgLen h).toNat) = true := by
  simp only [declaredSize, Config.headerSize] at hsize
  rw [State.inRange_iff] at hr ⊢
  omega

theorem execPktDis_goesOnOrUninit (s : State) : GoesOnOrUninit s (execPktDis s) := by
  unfold execPktDis
  split_ifs with hr hlen
  · exact goesOnOrUninit_raiseError s s _
  · split
    · next hnone => exact goesOnOrUninit_fault (State.hasUnwritten_of_readHeader (Nat.le_of_not_lt hlen) hr hnone)
    · split_ifs with hflag hlens hsize
      · exact goesOnOrUninit_raiseError s s _
      · exact goesOnOrUninit_raiseError s s _
      · exact goesOnOrUninit_raiseError s s _
      · split
        · next hnone =>
          exact goesOnOrUninit_fault
            (State.hasUnwritten_of_readBytes (State.inRange_body hr (Nat.le_of_not_lt hsize)) hnone)
        · split_ifs
          · exact goesOnOrUninit_raiseError s s _
          · exact goesOnOrUninit_complete s _
  · exact goesOnOrUninit_raiseError s s _

theorem ite_raiseError_complete_goesOn (c : Prop) [Decidable c] (e : ErrCode) (s u : State) :
    ∃ t, (if c then raiseError e s else complete u) = .next t := by
  split_ifs
  · exact ⟨_, rfl⟩
  · exact ⟨_, rfl⟩

/-- The commands that read no MEM (30_encoding.md R82) go on in every state. -/
theorem exec_goesOn_of_reads_no_mem {i : Instr} (hi : i ∉ [.crcRange, .hdrLoad, .pktAsm, .pktDis]) (s : State) :
    ∃ t, exec i s = .next t := by
  cases i with
  | nop => exact ⟨_, execNop_eq s⟩
  | crcVal => unfold exec execCrcVal; exact ite_raiseError_complete_goesOn _ _ _ _
  | hdrNew => unfold exec execHdrNew; exact ite_raiseError_complete_goesOn _ _ _ _
  | hdrSetCrc => exact ⟨_, execHdrSetCrc_eq s⟩
  | hdrChecksum => exact ⟨_, execHdrChecksum_eq s⟩
  | hdrStore => unfold exec execHdrStore; rw [← ite_not]; exact ite_raiseError_complete_goesOn _ _ _ _
  | reservedAB opc => exact ⟨_, execReservedAB_eq opc s⟩
  | reservedCF opc => exact ⟨_, execReservedCF_eq opc s⟩
  | crcRange | hdrLoad | pktAsm | pktDis => simp at hi

theorem exec_goesOnOrUninit (i : Instr) (s : State) : GoesOnOrUninit s (exec i s) := by
  by_cases hi : i ∈ [.crcRange, .hdrLoad, .pktAsm, .pktDis]
  · simp only [List.mem_cons, List.not_mem_nil, or_false] at hi
    obtain rfl | rfl | rfl | rfl := hi
    · exact execCrcRange_goesOnOrUninit s
    · exact execHdrLoad_goesOnOrUninit s
    · exact execPktAsm_goesOnOrUninit s
    · exact execPktDis_goesOnOrUninit s
  · exact .inl (exec_goesOn_of_reads_no_mem hi s)

theorem exec_ne_refused (i : Instr) (s : State) (r : Refusal) : exec i s ≠ .refused r := by
  obtain ⟨t, h⟩ | ⟨h, -⟩ := exec_goesOnOrUninit i s <;> simp [h]

/-! ## Accesses to REG -/

theorem issueAccess_regRead_of_slot {off : Nat} {p : Slot} (h : slotAt off = some p) (s : State) :
    issueAccess (.regRead off) s = .next (s.recorded (.word (slotRead p s))) := by simp [issueAccess, h]

/-- A write to a slot may fault by the command it starts, but it is never refused. -/
theorem issueAccess_regWrite_ne_refused {off : Nat} {p : Slot} (h : slotAt off = some p) (v : Word) (s : State)
    (r : Refusal) : issueAccess (.regWrite off v) s ≠ .refused r := by
  cases p with
  | reserved => simp [(issueAccess_reserved h v s).1]
  | named reg =>
    obtain rfl := eq_regOffset_of_slotAt h
    by_cases hcmd : reg = .cmd
    · rw [hcmd, issueAccess_cmd]; exact exec_ne_refused _ s r
    · simp [issueAccess_regWrite reg hcmd v s]

/-! ## Accesses to MEM -/

theorem issueAccess_memRead_unwritten {x : Nat} {s : State} (h : x < s.memSize) (hx : s.mem.read x = none) :
    issueAccess (.memRead x) s = .fault .uninitRead := by simp [issueAccess, h, hx]

theorem issueAccess_memRead_outside {x : Nat} {s : State} (h : s.memSize ≤ x) :
    issueAccess (.memRead x) s = .refused .hostAccess := if_neg (Nat.not_lt.2 h)

theorem issueAccess_memWrite_outside {x : Nat} {s : State} (h : s.memSize ≤ x) (b : Byte) :
    issueAccess (.memWrite x b) s = .refused .hostAccess := if_neg (Nat.not_lt.2 h)

/-! ## An access takes no part in the list of events to come -/

/-- `f` applied to the next state of an outcome; a fault or refusal stays as it is. -/
def mapNext (f : State → State) : Host.Outcome State Fault Refusal → Host.Outcome State Fault Refusal
  | .next s => .next (f s)
  | .fault r => .fault r
  | .refused r => .refused r

@[simp] theorem mapNext_next (f : State → State) (s : State) : mapNext f (.next s) = .next (f s) := rfl

@[simp] theorem mapNext_fault (f : State → State) (r : Fault) : mapNext f (.fault r) = .fault r := rfl

@[simp] theorem mapNext_refused (f : State → State) (r : Refusal) : mapNext f (.refused r) = .refused r := rfl

/-- A check that both states decide alike is passed or failed by both. -/
theorem ite_eq_mapNext {f : State → State} {c : Prop} [Decidable c] {o₁ o₂ p₁ p₂ : Host.Outcome State Fault Refusal}
    (h₁ : o₁ = mapNext f p₁) (h₂ : o₂ = mapNext f p₂) :
    (if c then o₁ else o₂) = mapNext f (if c then p₁ else p₂) := by rw [h₁, h₂, apply_ite (mapNext f)]

theorem execPktAsm_withPending (s : State) (es : List HostEvent) :
    execPktAsm (s.withPending es) = mapNext (·.withPending es) (execPktAsm s) := by
  refine ite_eq_mapNext rfl (ite_eq_mapNext rfl (ite_eq_mapNext rfl (ite_eq_mapNext ?_ rfl)))
  have hchunk : (s.withPending es).chunkLen = s.chunkLen := rfl
  rw [hchunk, State.withPending_mem, State.withPending_nameAddr, State.withPending_nameLen, State.withPending_msgAddr]
  split <;> rfl

theorem execPktDis_withPending (s : State) (es : List HostEvent) :
    execPktDis (s.withPending es) = mapNext (·.withPending es) (execPktDis s) := by
  refine ite_eq_mapNext (ite_eq_mapNext rfl ?_) rfl
  rw [State.withPending_mem, State.withPending_srcAddr]
  split
  · rfl
  · refine ite_eq_mapNext rfl (ite_eq_mapNext rfl (ite_eq_mapNext rfl ?_))
    split
    · rfl
    · exact ite_eq_mapNext rfl rfl

theorem exec_withPending (i : Instr) (s : State) (es : List HostEvent) :
    exec i (s.withPending es) = mapNext (·.withPending es) (exec i s) := by
  cases i with
  | nop | hdrSetCrc | hdrChecksum | reservedAB | reservedCF => rfl
  | crcVal | hdrNew | hdrStore => exact ite_eq_mapNext rfl rfl
  | crcRange =>
    refine ite_eq_mapNext ?_ rfl
    rw [State.withPending_mem, State.withPending_srcAddr, State.withPending_srcLen]
    split <;> rfl
  | hdrLoad =>
    refine ite_eq_mapNext (ite_eq_mapNext rfl ?_) rfl
    rw [State.withPending_mem, State.withPending_srcAddr]
    split <;> rfl
  | pktAsm => exact execPktAsm_withPending s es
  | pktDis => exact execPktDis_withPending s es

theorem issueAccess_withPending (a : HostAccess) (s : State) (es : List HostEvent) :
    issueAccess a (s.withPending es) = mapNext (·.withPending es) (issueAccess a s) := by
  cases a with
  | regWrite off v =>
    cases hslot : slotAt off with
    | none => simp [(issueAccess_offSlot hslot v _).1]
    | some p =>
      cases p with
      | reserved => simp [(issueAccess_reserved hslot v _).1]
      | named r =>
        obtain rfl := eq_regOffset_of_slotAt hslot
        cases r
        case cmd => exact exec_withPending (decodeWord v) s es
        all_goals rfl
  | regRead off =>
    cases hslot : slotAt off with
    | none => simp [(issueAccess_offSlot hslot 0#32 _).2]
    | some p =>
      rw [issueAccess_regRead_of_slot hslot, issueAccess_regRead_of_slot hslot]
      cases p with
      | reserved => rfl
      | named r => cases r <;> rfl
  | memWrite x b => exact ite_eq_mapNext rfl rfl
  | memRead x =>
    refine ite_eq_mapNext ?_ rfl
    rw [State.withPending_mem]
    split <;> rfl
  | regOtherWidth | memOtherWidth => rfl

/-- An access leaves the list as it is: with the list of `s` itself put in, it must answer the same. -/
theorem issueAccess_pending {a : HostAccess} {s t : State} (h : issueAccess a s = .next t) : t.pending = s.pending := by
  have hself : issueAccess a s = mapNext (·.withPending s.pending) (issueAccess a s) := issueAccess_withPending a s s.pending
  rw [h, mapNext_next, Host.Outcome.next.injEq] at hself
  rw [hself, State.withPending_pending]

/-- A step with an access first in the list is that access, the rest of the list still to come. -/
theorem step_withPending_access (a : HostAccess) (es : List HostEvent) (s : State) :
    step (s.withPending (.access a :: es)) = mapNext (·.withPending es) (issueAccess a s) :=
  issueAccess_withPending a s es

theorem run_withPending_accesses (as : List HostAccess) {s : State} (hs : s.pending = []) :
    Sys2Proof.core.run as.length (s.withPending (as.map .access)) = issueAll as s := by
  induction as generalizing s with
  | nil => exact congrArg (fun es => Host.Outcome.next (s.withPending es)) hs.symm
  | cons a as ih =>
    have hstep : Sys2Proof.core.step (s.withPending ((a :: as).map .access)) =
        mapNext (·.withPending (as.map .access)) (issueAccess a s) := step_withPending_access a (as.map .access) s
    refine (run_succ Sys2Proof.core as.length _).trans ?_
    rw [hstep, issueAll]
    cases haccess : issueAccess a s with
    | next t => exact ih ((issueAccess_pending haccess).trans hs)
    | fault f => rfl
    | refused r => rfl

/-! ## The obligations -/

/-- Settles O7: the offsets with a slot are those of R65, and at a slot only the command of a write to `CMD` could stop. -/
theorem regAccessRefusedExactlyOffSlots : Obligations.RegAccessRefusedExactlyOffSlots := by
  intro s off v
  refine ⟨fun hin => ?_, fun hout => ?_, rfl⟩
  · obtain ⟨p, hp⟩ := Option.ne_none_iff_exists'.1 (fun hnone => (slotAt_eq_none off).1 hnone hin)
    exact ⟨⟨_, issueAccess_regRead_of_slot hp s⟩, issueAccess_regWrite_ne_refused hp v s⟩
  · exact (issueAccess_offSlot ((slotAt_eq_none off).2 hout) v s).symm

/-- Settles O8: below `MEM_SIZE` by what a read after one write answers, and above it by the interface. -/
theorem hostMemAccess : Obligations.HostMemAccess := by
  intro s x b
  refine ⟨fun hin => ⟨fun c hc => issueAccess_memRead hin hc, issueAccess_memRead_unwritten hin, ?_⟩,
    fun hout => ⟨issueAccess_memRead_outside hout, issueAccess_memWrite_outside hout b⟩, rfl⟩
  exact ⟨s.withMem (s.mem.write x b), issueAccess_memWrite hin b, rfl, Memory.read_write s.mem x b⟩

/-- Settles O9, by induction on the accesses: the rest of the list takes no part in the first of them. -/
theorem stepsRunHostProgram : Obligations.StepsRunHostProgram := fun as _ hs => run_withPending_accesses as hs

/-- Settles O45: a command goes on, or it is one that reads MEM and has met an unwritten byte. -/
theorem commandsStopOnlyAtUnwrittenBytes : Obligations.CommandsStopOnlyAtUnwrittenBytes := by
  refine ⟨fun i s hwritten => ?_, fun i s hi => exec_goesOn_of_reads_no_mem hi s, exec_ne_refused⟩
  obtain hnext | ⟨-, x, hx, hnone⟩ := exec_goesOnOrUninit i s
  · exact hnext
  · exact absurd hnone (hwritten x hx)

end Sys2Proof.Machine

/-! SUPPORT. Command words and the opcode table (30_encoding.md): decoding against encoding, the row of each word, what each
command may write, what each access changes, and the pseudo-instruction `crc4`. -/

namespace Sys2Proof

/-! ## Command words -/

theorem decodeOpc_encodeOpc {i : Instr} (hi : i.wf = true) : decodeOpc (encodeOpc i) = i := by
  cases i with
  | reservedAB opc => revert opc; decide
  | reservedCF opc => revert opc; decide
  | nop | crcVal | crcRange | hdrNew | hdrSetCrc | hdrChecksum | hdrLoad | hdrStore | pktAsm | pktDis => rfl

theorem encodeOpc_decodeOpc (opc : BitVec 4) : encodeOpc (decodeOpc opc) = opc := by revert opc; decide

theorem decodeOpc_wf (opc : BitVec 4) : (decodeOpc opc).wf = true := by revert opc; decide

/-- The ignored bits of a word are not part of its opcode (30_encoding.md R81). -/
theorem opcOf_encode_or_ignored (i : Instr) (ignored : BitVec 28) :
    opcOf (encode i ||| (ignored ++ 0#4)) = encodeOpc i := by
  have hword : encode i ||| (ignored ++ 0#4) = (0#28 ||| ignored) ++ (encodeOpc i ||| 0#4) := BitVec.or_append
  rw [opcOf, hword, BitVec.extractLsb'_append_eq_right, BitVec.or_zero]

/-- Zeros above the opcode of a word: the word with its ignored bits cleared. -/
theorem zero_append_opcOf (w : Word) : (0#28 ++ opcOf w : BitVec 32) = w &&& 0xF#32 := by
  apply BitVec.eq_of_toNat_eq
  calc (0#28 ++ opcOf w : BitVec 32).toNat
      = 2 ^ 4 * (0#28).toNat + (opcOf w).toNat := Machine.toNat_append_eq_add 0#28 (opcOf w)
    _ = w.toNat % 2 ^ 4 := Nat.zero_add _
    _ = (w &&& 0xF#32).toNat := (Nat.and_two_pow_sub_one_eq_mod w.toNat 4).symm

theorem encode_decodeWord (w : Word) : encode (decodeWord w) = w &&& 0xF#32 := by
  rw [encode, decodeWord, encodeOpc_decodeOpc, zero_append_opcOf]

/-! ## The opcode table -/

theorem rowIndex_lt (i : Instr) : rowIndex i < 12 := by cases i <;> simp [rowIndex]

theorem rowFits (i : Instr) : Laws.RowFits.Statement i := by
  cases i with
  | nop => exact Laws.RowFits.nop
  | crcVal => exact Laws.RowFits.crcVal
  | crcRange => exact Laws.RowFits.crcRange
  | hdrNew => exact Laws.RowFits.hdrNew
  | hdrSetCrc => exact Laws.RowFits.hdrSetCrc
  | hdrChecksum => exact Laws.RowFits.hdrChecksum
  | hdrLoad => exact Laws.RowFits.hdrLoad
  | hdrStore => exact Laws.RowFits.hdrStore
  | pktAsm => exact Laws.RowFits.pktAsm
  | pktDis => exact Laws.RowFits.pktDis
  | reservedAB opc => exact Laws.RowFits.reservedAB opc
  | reservedCF opc => exact Laws.RowFits.reservedCF opc

theorem fits_encode_eq {i : Instr} (hi : i.wf = true) {k : Nat} {r : OpcodeRow} (hr : opcodeTable[k]? = some r) :
    r.fits (encode i) = (k == rowIndex i) := by
  obtain ⟨hk, -⟩ := List.getElem?_eq_some_iff.1 hr
  have hk : k < 12 := hk
  have hrow := congrArg (·[k]?) (rowFits i hi)
  simpa [hr, hk] using hrow

/-- No row looks at an ignored bit (30_encoding.md R81, R85). -/
theorem opcode_and_mask : ∀ r ∈ opcodeTable, 0xF#32 &&& r.mask = r.mask := by decide

/-- A word fits the rows that the word of its command fits. -/
theorem and_mask_eq_encode_and_mask {r : OpcodeRow} (hr : r ∈ opcodeTable) (w : Word) :
    w &&& r.mask = encode (decodeWord w) &&& r.mask := by
  rw [encode_decodeWord, BitVec.and_assoc, opcode_and_mask r hr]

theorem and_mask_eq_pattern_iff {k : Nat} {r : OpcodeRow} (hr : opcodeTable[k]? = some r) (w : Word) :
    w &&& r.mask = r.pattern ↔ rowIndex (decodeWord w) = k := by
  have hfits : r.fits (encode (decodeWord w)) = (k == rowIndex (decodeWord w)) := fits_encode_eq (decodeOpc_wf _) hr
  rw [and_mask_eq_encode_and_mask (List.mem_of_getElem? hr) w, ← beq_iff_eq]
  exact (Bool.eq_iff_iff.1 hfits).trans (beq_iff_eq.trans eq_comm)

end Sys2Proof

namespace Sys2Proof.Machine

/-! ## What a command may write -/

/-- What each command may write besides `STATUS` (30_encoding.md R82), as the states it can leave; `s` itself where it fails. -/
inductive Writes (s : State) : Instr → State → Prop
  | nothing (i : Instr) : Writes s i s
  | crcVal (c : Nibble) : Writes s .crcVal (s.withCrcResult c)
  | crcRange (c : Nibble) : Writes s .crcRange (s.withCrcResult c)
  | hdrNew (h : Header) : Writes s .hdrNew (s.withHdr h)
  | hdrSetCrc (h : Header) : Writes s .hdrSetCrc (s.withHdr h)
  | hdrChecksum (c : Nibble) : Writes s .hdrChecksum (s.withCrcResult c)
  | hdrLoad (h : Header) : Writes s .hdrLoad (s.withHdr h)
  | hdrStore (bytes : List Byte) (hlen : bytes.length = 2) :
    Writes s .hdrStore (s.withMem (s.mem.writeBytes s.dstAddr.toNat bytes))
  | pktAsm (bytes : List Byte) (hlen : bytes.length = s.asmSize) (h : Header) (c : Nibble) (z n m l : Nat) :
    Writes s .pktAsm
      ((((s.withMem (s.mem.writeBytes s.dstAddr.toNat bytes)).withHdr h).withCrcResult c).withResults z n m l)
  | pktDis (h : Header) (c : Nibble) (z n m l : Nat) :
    Writes s .pktDis (((s.withHdr h).withCrcResult c).withResults z n m l)

/-- A command that fails has written nothing; one that succeeds has written `u`. -/
theorem exists_writes_of_raised_or {i : Instr} {s t : State} {p : Prop}
    (h : (∃ e : ErrCode, e.raised ∧ t = s.withStatus e) ∨ p) (hp : p → ∃ u e, t = u.withStatus e ∧ Writes s i u) :
    ∃ u e, t = u.withStatus e ∧ Writes s i u := by
  obtain ⟨e, -, rfl⟩ | h := h
  · exact ⟨s, e, rfl, .nothing i⟩
  · exact hp h

theorem exec_writes {i : Instr} {s t : State} (h : exec i s = .next t) :
    ∃ u e, t = u.withStatus e ∧ Writes s i u := by
  cases i with
  | nop => exact ⟨s, _, (Host.Outcome.next.inj h).symm, .nothing _⟩
  | crcVal =>
    refine exists_writes_of_raised_or (execCrcVal_cases h) ?_
    rintro ⟨-, rfl⟩
    exact ⟨_, _, rfl, .crcVal _⟩
  | crcRange =>
    refine exists_writes_of_raised_or (execCrcRange_cases h) ?_
    rintro ⟨_, -, -, rfl⟩
    exact ⟨_, _, rfl, .crcRange _⟩
  | hdrNew =>
    refine exists_writes_of_raised_or (execHdrNew_cases h) ?_
    rintro ⟨-, -, -, -, rfl⟩
    exact ⟨_, _, rfl, .hdrNew _⟩
  | hdrSetCrc => exact ⟨_, _, (Host.Outcome.next.inj h).symm, .hdrSetCrc _⟩
  | hdrChecksum => exact ⟨_, _, (Host.Outcome.next.inj h).symm, .hdrChecksum _⟩
  | hdrLoad =>
    refine exists_writes_of_raised_or (execHdrLoad_cases h) ?_
    rintro ⟨_, -, -, -, rfl⟩
    exact ⟨_, _, rfl, .hdrLoad _⟩
  | hdrStore =>
    refine exists_writes_of_raised_or (execHdrStore_cases h) ?_
    rintro ⟨-, rfl⟩
    exact ⟨_, _, rfl, .hdrStore _ (headerBytes_length s.hdr)⟩
  | pktAsm =>
    refine exists_writes_of_raised_or (execPktAsm_cases h) ?_
    rintro ⟨name, chunk, -, -, -, -, -, -, hname, hchunk, rfl⟩
    have hlen : (packetBytes name chunk).length = s.asmSize := by
      rw [packetBytes_length, Memory.readBytes_length hname, Memory.readBytes_length hchunk]
      rfl
    exact ⟨_, _, rfl, .pktAsm _ hlen _ _ _ _ _ _⟩
  | pktDis =>
    refine exists_writes_of_raised_or (execPktDis_cases h) ?_
    rintro ⟨_, _, -, -, -, -, -, -, rfl⟩
    exact ⟨_, _, rfl, .pktDis _ _ _ _ _ _⟩
  | reservedAB opc => exact ⟨s, _, (Host.Outcome.next.inj h).symm, .nothing _⟩
  | reservedCF opc => exact ⟨s, _, (Host.Outcome.next.inj h).symm, .nothing _⟩

theorem Memory.sameOutside_self (m : Memory) (a n : Nat) : m.sameOutside m a n := fun _ _ => rfl

section writes

variable {i : Instr} {s u : State}

theorem Writes.crcResult_eq (h : Writes s i u) (hi : i ∉ [.crcVal, .crcRange, .hdrChecksum, .pktAsm, .pktDis]) :
    u.crcResult = s.crcResult := by
  cases h with
  | nothing | hdrNew | hdrSetCrc | hdrLoad | hdrStore => rfl
  | crcVal | crcRange | hdrChecksum | pktAsm | pktDis => simp at hi

theorem Writes.hdr_eq (h : Writes s i u) (hi : i ∉ [.hdrNew, .hdrSetCrc, .hdrLoad, .pktAsm, .pktDis]) :
    u.hdr = s.hdr := by
  cases h with
  | nothing | crcVal | crcRange | hdrChecksum | hdrStore => rfl
  | hdrNew | hdrSetCrc | hdrLoad | pktAsm | pktDis => simp at hi

theorem Writes.results_eq (h : Writes s i u) (hi : i ∉ [.pktAsm, .pktDis]) :
    u.resSize = s.resSize ∧ u.resNameAddr = s.resNameAddr ∧ u.resMsgAddr = s.resMsgAddr ∧
      u.resMsgLen = s.resMsgLen := by
  cases h with
  | nothing | crcVal | crcRange | hdrChecksum | hdrNew | hdrSetCrc | hdrLoad | hdrStore => exact ⟨rfl, rfl, rfl, rfl⟩
  | pktAsm | pktDis => simp at hi

theorem Writes.mem_eq (h : Writes s i u) (hi : i ∉ [.hdrStore, .pktAsm]) : u.mem = s.mem := by
  cases h with
  | nothing | crcVal | crcRange | hdrChecksum | hdrNew | hdrSetCrc | hdrLoad | pktDis => rfl
  | hdrStore | pktAsm => simp at hi

theorem Writes.mem_sameOutside_hdrStore (h : Writes s .hdrStore u) : s.mem.sameOutside u.mem s.dstAddr.toNat 2 := by
  cases h with
  | nothing => exact Memory.sameOutside_self _ _ _
  | hdrStore bytes hlen => exact hlen ▸ Memory.sameOutside_writeBytes s.mem s.dstAddr.toNat bytes

theorem Writes.mem_sameOutside_pktAsm (h : Writes s .pktAsm u) :
    s.mem.sameOutside u.mem s.dstAddr.toNat s.asmSize := by
  cases h with
  | nothing => exact Memory.sameOutside_self _ _ _
  | pktAsm bytes hlen => exact hlen ▸ Memory.sameOutside_writeBytes s.mem s.dstAddr.toNat bytes

/-- The operand registers, `MEM_SIZE` and the host's part are no command's to write (30_encoding.md R82). -/
theorem Writes.frame (h : Writes s i u) :
    u = { s with
      crcResult := u.crcResult, hdr := u.hdr, resSize := u.resSize, resNameAddr := u.resNameAddr
      resMsgAddr := u.resMsgAddr, resMsgLen := u.resMsgLen, mem := u.mem } := by cases h <;> rfl

end writes

/-! ## What an access changes -/

@[simp] theorem regWrite_mem (r : Reg) (v : Word) (s : State) : (regWrite r v s).mem = s.mem := by cases r <;> rfl

@[simp] theorem regWrite_pending (r : Reg) (v : Word) (s : State) : (regWrite r v s).pending = s.pending := by
  cases r <;> rfl

@[simp] theorem regWrite_reads (r : Reg) (v : Word) (s : State) : (regWrite r v s).reads = s.reads := by
  cases r <;> rfl

theorem regWrite_regWrite_same (r : Reg) (v : Word) (s : State) : regWrite r v (regWrite r v s) = regWrite r v s := by
  cases r <;> rfl

/-- A write changes one register, and `HDR_FIELDS` with `HDR` (10_state.md R40, 20_memory.md R70). -/
theorem regRead_regWrite_of_ne {r q : Reg} (hne : q ≠ r) (hfields : r = .hdr → q ≠ .hdrFields) (v : Word) (s : State) :
    regRead q (regWrite r v s) = regRead q s := by
  cases r with
  | cmd | status | crcResult | hdrFields | resSize | resNameAddr | resMsgAddr | resMsgLen | memSize => rfl
  | hdr =>
    cases q
    case hdr => exact absurd rfl hne
    case hdrFields => exact absurd rfl (hfields rfl)
    all_goals rfl
  | crcStart | crcBits | crcValueLo | crcValueHi | srcAddr | srcLen | nameAddr | nameLen | msgAddr | msgLen | dstAddr =>
    cases q <;> trivial -- `q` reads another field, or it is `r`, against `hne`

/-- An access that is no write has at most recorded a value (20_memory.md R70). -/
theorem issueAccess_read_frame {a : HostAccess} (hreg : ∀ off v, a ≠ .regWrite off v) (hmem : ∀ x b, a ≠ .memWrite x b)
    {s t : State} (h : issueAccess a s = .next t) : t = { s with reads := t.reads } := by
  obtain ⟨v, ha, -⟩ | ⟨r, v, -, ha, -⟩ | ⟨off, v, -, ha, -⟩ | ⟨x, b, -, ha, -⟩ | ⟨v, rfl⟩ := issueAccess_cases h
  · exact absurd ha (hreg _ _)
  · exact absurd ha (hreg _ _)
  · exact absurd ha (hreg _ _)
  · exact absurd ha (hmem _ _)
  · rfl

/-- A write to REG that is no command: one register takes the value, or the offset is reserved. -/
theorem issueAccess_regWrite_cases {off : Nat} (hoff : off ≠ 0x00) {v : Word} {s t : State}
    (h : issueAccess (.regWrite off v) s = .next t) :
    (∃ r, r ≠ .cmd ∧ off = regOffset r ∧ t = regWrite r v s) ∨ (slotAt off = some .reserved ∧ t = s) := by
  cases hslot : slotAt off with
  | none => simp [(issueAccess_offSlot hslot v s).1] at h
  | some p =>
    cases p with
    | reserved =>
      rw [(issueAccess_reserved hslot v s).1] at h
      exact .inr ⟨rfl, (Host.Outcome.next.inj h).symm⟩
    | named r =>
      obtain rfl := eq_regOffset_of_slotAt hslot
      have hcmd : r ≠ .cmd := by rintro rfl; exact hoff rfl
      rw [issueAccess_regWrite r hcmd] at h
      exact .inl ⟨r, hcmd, rfl, (Host.Outcome.next.inj h).symm⟩

theorem issueAccess_memWrite_eq_next {x : Nat} {b : Byte} {s t : State} :
    issueAccess (.memWrite x b) s = .next t ↔ x < s.memSize ∧ t = s.withMem (s.mem.write x b) := by
  by_cases hx : x < s.memSize
  · simp [issueAccess_memWrite hx, hx, eq_comm]
  · simp [issueAccess_memWrite_outside (Nat.le_of_not_lt hx), hx]

/-! ## The pseudo-instruction `crc4` -/

theorem execCrcVal_ok {s : State} (hbits : s.crcBits.toNat ≤ 64) :
    execCrcVal s = .next ((s.withCrcResult (crc4 s.crcStart s.crcValue s.crcBits.toNat)).withStatus .ok) :=
  if_neg (Nat.not_lt.2 hbits)

theorem issueAll_singleton (a : HostAccess) (s : State) : issueAll [a] s = issueAccess a s := by
  rw [issueAll]
  cases issueAccess a s <;> rfl

/-- The pseudo-instruction `crc4` (30_encoding.md R87) is CRC_VAL after four register writes. -/
theorem issueAll_crc4 (start : Word) (value : BitVec 64) (bits : Word) (s : State) :
    issueAll (pseudoAccesses (.crc4 start value bits)) s =
      execCrcVal { s with
        crcStart := start.setWidth 4, crcValueLo := value.extractLsb' 0 32, crcValueHi := value.extractLsb' 32 32
        crcBits := bits.setWidth 7 } :=
  issueAll_singleton (.regWrite (regOffset .cmd) (encode .crcVal)) _

/-! ## The obligations -/

/-- Settles O1: decoding reads the opcode alone, and on opcodes it undoes encoding both ways. -/
theorem decodeEncodeAgree : Obligations.DecodeEncodeAgree := by
  refine ⟨fun i hi ignored => ?_, fun w => ⟨decodeOpc_wf (opcOf w), encode_decodeWord w⟩⟩
  rw [decodeWord, opcOf_encode_or_ignored, decodeOpc_encodeOpc hi]

/-- Settles O2: a word fits the rows of the table as the word of its command does, which fits its own row only. -/
theorem everyWordSelectsOneRow : Obligations.EveryWordSelectsOneRow :=
  ⟨by decide, by decide, fun w => ⟨rowIndex_lt (decodeWord w), fun _ _ hr => and_mask_eq_pattern_iff hr w⟩⟩

/-- Settles O3. -/
theorem sampleWordsDecode : Obligations.SampleWordsDecode := by
  unfold Obligations.SampleWordsDecode
  decide

/-- Settles O6, access by access. -/
theorem accessSideEffects : Obligations.AccessSideEffects := by
  intro s
  refine ⟨fun r => issueAccess_regRead r s, fun off t => issueAccess_read_frame (by simp) (by simp),
    fun x t => issueAccess_read_frame (by simp) (by simp), fun v => issueAccess_cmd v s, fun off v t hoff h => ?_,
    fun x b t h => ?_⟩
  · obtain ⟨r, hcmd, rfl, rfl⟩ | ⟨hslot, rfl⟩ := issueAccess_regWrite_cases hoff h
    · refine ⟨fun q hq hfields => regRead_regWrite_of_ne (fun e => hq (congrArg regOffset e))
        (fun e => hfields (congrArg regOffset e)) v s, regWrite_mem r v s, regWrite_memSize r v s,
        regWrite_pending r v s, regWrite_reads r v s, ?_⟩
      rw [issueAccess_regWrite r hcmd, regWrite_regWrite_same]
    · exact ⟨fun _ _ _ => rfl, rfl, rfl, rfl, rfl, (issueAccess_reserved hslot v t).1⟩
  · obtain ⟨hx, rfl⟩ := issueAccess_memWrite_eq_next.1 h
    refine ⟨rfl, Memory.read_write s.mem x b, issueAccess_memWrite_eq_next.2 ⟨hx, ?_⟩⟩
    rw [State.withMem_mem, Memory.write_write_same]
    rfl

/-- Settles O10: CRC_VAL on operand registers that hold `s`, `v` and `n`. -/
theorem pseudoCrc4ComputesCrc : Obligations.PseudoCrc4ComputesCrc := by
  intro st s v n hn
  have hstart : s.setWidth 4 = s.extractLsb' 0 4 := BitVec.setWidth_eq_extractLsb' (by decide)
  have hbits : (n.setWidth 7).toNat = n.toNat := by rw [BitVec.toNat_setWidth]; omega
  have hvalue : v.extractLsb' 32 32 ++ v.extractLsb' 0 32 = v := BitVec.extractLsb'_append_extractLsb'
  refine ⟨_, (issueAll_crc4 s v n st).trans (execCrcVal_ok (hbits.trans_le hn)), ?_, hstart, hbits, hvalue⟩
  simp [State.withStatus, State.withCrcResult, State.crcValue, hstart, hbits, hvalue, statusOf, ErrCode.code]

/-- Settles O43: the columns of R82, read off what each command may write. -/
theorem commandsWriteOnlyTheirTargets : Obligations.CommandsWriteOnlyTheirTargets := by
  intro i s t h
  obtain ⟨u, e, rfl, hw⟩ := exec_writes h
  refine ⟨congrArg (·.withStatus e) hw.frame, hw.crcResult_eq, hw.hdr_eq, hw.results_eq, hw.mem_eq, ?_, ?_⟩
  · rintro rfl; exact hw.mem_sameOutside_hdrStore
  · rintro rfl; exact hw.mem_sameOutside_pktAsm

end Sys2Proof.Machine

/-! SUPPORT. Commands (40_command.md): what starts one, what one that ends with an error leaves unchanged, and the commands of
no unit. -/

namespace Sys2Proof

/-- The two reserved rows share the opcodes from 0xA on (30_encoding.md R83). -/
theorem decodeOpc_reserved {opc : BitVec 4} (h : 0xA ≤ opc.toNat) :
    decodeOpc opc = .reservedAB opc ∨ decodeOpc opc = .reservedCF opc := by revert opc; decide

/-- The row of a 32-bit word takes the word as it is. -/
theorem tableWord_word (w : Nat) : tableWord 32 w = BitVec.ofNat 32 w := BitVec.eq_of_toNat_eq (by simp [tableWord])

end Sys2Proof

namespace Sys2Proof.Machine

/-! ## What starts a command -/

/-- A step on a write of `CMD` is the command of the word, the rest of the list still to come (40_command.md R100). -/
theorem step_of_cmdWrite {s : State} {v : Word} {es : List HostEvent}
    (h : s.pending = .access (.regWrite (regOffset .cmd) v) :: es) : step s = exec (decodeWord v) (s.withPending es) :=
  (step_of_pending h).trans (issueAccess_cmd v (s.withPending es))

theorem step_withFetchWord (s : State) (w : Nat) :
    step (s.withFetchWord 32 w) = exec (decodeWord (BitVec.ofNat 32 w)) s := by
  rw [← tableWord_word]
  exact step_of_cmdWrite (s := s.withFetchWord 32 w) rfl

/-- Two states that agree on the registers which commands alone write (10_state.md R26, R31, R41 to R44). -/
def CommandRegsAgree (s t : State) : Prop :=
  t.status = s.status ∧ t.crcResult = s.crcResult ∧ t.resSize = s.resSize ∧ t.resNameAddr = s.resNameAddr ∧
    t.resMsgAddr = s.resMsgAddr ∧ t.resMsgLen = s.resMsgLen

theorem commandRegsAgree_refl (s : State) : CommandRegsAgree s s := ⟨rfl, rfl, rfl, rfl, rfl, rfl⟩

theorem commandRegsAgree_withMem (s : State) (m : Memory) : CommandRegsAgree s (s.withMem m) := commandRegsAgree_refl s

theorem commandRegsAgree_recorded (s : State) (v : ReadValue) : CommandRegsAgree s (s.recorded v) := commandRegsAgree_refl s

/-- To the host these registers are read only (10_state.md R24). -/
theorem commandRegsAgree_regWrite (r : Reg) (v : Word) (s : State) : CommandRegsAgree s (regWrite r v s) := by
  cases r <;> exact commandRegsAgree_refl s

theorem issueAccess_commandRegsAgree {a : HostAccess} (ha : ∀ v, a ≠ .regWrite (regOffset .cmd) v) {s t : State}
    (h : issueAccess a s = .next t) : CommandRegsAgree s t := by
  obtain ⟨v, hcmd, -⟩ | ⟨r, v, -, -, rfl⟩ | ⟨off, v, -, -, rfl⟩ | ⟨x, b, -, -, rfl⟩ | ⟨v, rfl⟩ := issueAccess_cases h
  · exact absurd hcmd (ha v)
  · exact commandRegsAgree_regWrite r v s
  · exact commandRegsAgree_refl t
  · exact commandRegsAgree_withMem s _
  · exact commandRegsAgree_recorded s v

/-! ## How a command ends -/

/-- A non-zero code is that of an error which the command has raised, and to raise one changes `STATUS` only (40_command.md
R103). -/
theorem exec_eq_withStatus_of_err {i : Instr} {s t : State} (h : exec i s = .next t) (herr : t.err ≠ 0#4) :
    ∃ e : ErrCode, e.raised ∧ t = s.withStatus e := by
  obtain hraised | ⟨u, rfl, -⟩ := exec_cases h
  · exact hraised
  · exact absurd (State.err_withStatus u .ok) herr

/-- `STATUS` is `16 + code` (60_exceptions.md R232), the code read back from `STATUS` itself. -/
theorem State.withStatus_eq_of_own_err (s : State) (e : ErrCode) :
    s.withStatus e = { s with status := 1#1 ++ (s.withStatus e).err } := by
  rw [State.err_withStatus]
  rfl

theorem exec_nop (s : State) : exec .nop s = .next (s.withStatus .ok) := rfl

theorem exec_reservedAB (opc : BitVec 4) (s : State) : exec (.reservedAB opc) s = .next (s.withStatus .illegalCommand) := rfl

theorem exec_reservedCF (opc : BitVec 4) (s : State) : exec (.reservedCF opc) s = .next (s.withStatus .illegalCommand) := rfl

/-- The rest of the word does not matter (40_command.md R105). -/
theorem exec_decodeWord_reserved {w : Word} (hw : 0xA ≤ (opcOf w).toNat) (s : State) :
    exec (decodeWord w) s = .next (s.withStatus .illegalCommand) := by
  obtain hrow | hrow := decodeOpc_reserved hw
  · rw [decodeWord, hrow, exec_reservedAB]
  · rw [decodeWord, hrow, exec_reservedCF]

/-! ## The obligations -/

/-- Settles O4. -/
theorem commandWriteRunsDecodedCommand : Obligations.CommandWriteRunsDecodedCommand :=
  ⟨fun _ _ _ hp => step_of_cmdWrite hp, step_withFetchWord⟩

/-- Settles O5: of the events that are no reset, an access writes these registers only as a command. -/
theorem onlyCmdWriteStartsCommand : Obligations.OnlyCmdWriteStartsCommand := by
  rintro s e es hp
  refine ⟨?_, fun hcmd hreset t hstep => ?_⟩
  · rintro v rfl
    exact step_of_cmdWrite hp
  · cases e with
    | reset => exact absurd rfl hreset
    | access a =>
      have haccess : issueAccess a (s.withPending es) = .next t := (step_of_pending hp).symm.trans hstep
      have hagree : CommandRegsAgree (s.withPending es) t :=
        issueAccess_commandRegsAgree (fun v ha => hcmd v (congrArg HostEvent.access ha)) haccess
      exact hagree

/-- Settles O19. -/
theorem nopWritesStatusOnly : Obligations.NopWritesStatusOnly := ⟨rfl, exec_nop⟩

/-- Settles O20: a word of a reserved opcode is one of the two reserved commands, and `16 + 12` is `0x1C`. -/
theorem reservedOpcodesRaiseIllegalCommand : Obligations.ReservedOpcodesRaiseIllegalCommand :=
  ⟨fun s _ hw => exec_decodeWord_reserved hw s, fun s opc => ⟨exec_reservedAB opc s, exec_reservedCF opc s⟩⟩

/-- Settles O41: the command has raised an error, and `STATUS` holds its code. -/
theorem failingCommandChangesOnlyStatus : Obligations.FailingCommandChangesOnlyStatus := by
  intro i s t h herr
  obtain ⟨e, -, rfl⟩ := exec_eq_withStatus_of_err h herr
  exact State.withStatus_eq_of_own_err s e

end Sys2Proof.Machine

/-! SUPPORT. The CRC4 generator (41_crc4.md): the functions as folds over nibbles, bytes and bits, the algebra of the table, and
what CRC_VAL and CRC_RANGE do. -/

namespace Sys2Proof.Machine

/-! ## The functions as folds -/

/-- The low `n` nibbles of a number, the most significant first: the input of R123. -/
def nibblesMsbFirst (n v : Nat) : List Nibble := (List.range n).reverse.map (fun i => BitVec.ofNat 4 (v / 16 ^ i))

theorem nibblesMsbFirst_succ (n v : Nat) :
    nibblesMsbFirst (n + 1) v = BitVec.ofNat 4 (v / 16 ^ n) :: nibblesMsbFirst n v := by
  simp [nibblesMsbFirst, List.range_succ]

theorem foldNibbles_eq_foldl (v : BitVec 64) (n : Nat) (c : Nibble) :
    foldNibbles v n c = (nibblesMsbFirst n v.toNat).foldl crcFold c := by
  induction n generalizing c with
  | zero => rfl
  | succ n ih => rw [foldNibbles_succ, ih, nibblesMsbFirst_succ, List.foldl_cons, nibble_toNat]

/-- `crc4` is a fold over the nibbles of its input (41_crc4.md R123). -/
theorem crc4_eq_foldl (start : Nibble) (value : BitVec 64) {bits : Nat} (h : bits ≤ 64) :
    crc4 start value bits = (nibblesMsbFirst ((bits + 3) / 4) (value.toNat % 2 ^ bits)).foldl crcFold start := by
  rw [crc4, foldNibbles_eq_foldl, maskLow_toNat value h]

theorem crc4_zero_bits (c : Nibble) (v : BitVec 64) : crc4 c v 0 = c := rfl

/-- `crc4_range` is a fold over its bytes (41_crc4.md R124). -/
theorem crc4Range_eq_foldl (start : Nibble) (bytes : List Byte) :
    crc4Range start bytes = bytes.foldl (fun c b => crc4 c (b.setWidth 64) 8) start := by
  induction bytes generalizing start with
  | nil => rfl
  | cons b bs ih => exact ih _

theorem crc4Range_append (c : Nibble) (as bs : List Byte) : crc4Range c (as ++ bs) = crc4Range (crc4Range c as) bs := by
  simp only [crc4Range_eq_foldl, List.foldl_append]

/-! ## The bits of a number -/

theorem bitsMsbFirst_add (m n v : Nat) : bitsMsbFirst (m + n) v = bitsMsbFirst m (v / 2 ^ n) ++ bitsMsbFirst n v := by
  have hshift : v.testBit ∘ (n + ·) = (v / 2 ^ n).testBit :=
    funext fun i => by rw [Function.comp_apply, Nat.testBit_div_two_pow, Nat.add_comm]
  rw [bitsMsbFirst, Nat.add_comm, List.range_add, List.reverse_append, List.map_append, ← List.map_reverse, List.map_map,
    hshift]
  rfl

theorem bitsMsbFirst_mod (n v : Nat) : bitsMsbFirst n (v % 2 ^ n) = bitsMsbFirst n v :=
  List.map_congr_left fun i hi => by
    have hlt : i < n := by simpa using hi
    simp [Nat.testBit_mod_two_pow, hlt]

/-- The bits of a number are those of its groups of `w` bits, the most significant group first. -/
theorem bitsMsbFirst_mul (w k v : Nat) :
    bitsMsbFirst (w * k) v = (List.range k).reverse.flatMap (fun j => bitsMsbFirst w (v / 2 ^ (w * j))) := by
  induction k with
  | zero => rfl
  | succ k ih => rw [Nat.mul_succ, Nat.add_comm, bitsMsbFirst_add, ih]; simp [List.range_succ]

theorem bitsMsbFirst_nibbles (n v : Nat) :
    (nibblesMsbFirst n v).flatMap (fun d => bitsMsbFirst 4 d.toNat) = bitsMsbFirst (4 * n) v := by
  have hdigit : ∀ x, bitsMsbFirst 4 (BitVec.ofNat 4 x).toNat = bitsMsbFirst 4 x := bitsMsbFirst_mod 4
  simp only [bitsMsbFirst_mul, nibblesMsbFirst, List.flatMap_map, hdigit, Nat.pow_mul, Nat.reducePow]

theorem bitsMsbFirst_bytes (v : BitVec 64) (k : Nat) :
    ((List.range k).reverse.map (fun j => v.extractLsb' (8 * j) 8)).flatMap (fun b => bitsMsbFirst 8 b.toNat) =
      bitsMsbFirst (8 * k) v.toNat := by
  simp only [bitsMsbFirst_mul, List.flatMap_map, BitVec.extractLsb'_toNat, bitsMsbFirst_mod, Nat.shiftRight_eq_div_pow]

/-! ## The shift register -/

/-- One look-up in the table is four bits through the shift register of `g(x)` (41_crc4.md R121). -/
theorem crcFold_eq_serial (c d : Nibble) : crcFold c d = (bitsMsbFirst 4 d.toNat).foldl serialBit c := by
  revert c d; decide

theorem foldl_crcFold_eq_serial (c : Nibble) (n v : Nat) :
    (nibblesMsbFirst n v).foldl crcFold c = (bitsMsbFirst (4 * n) v).foldl serialBit c := by
  simp only [← bitsMsbFirst_nibbles, List.foldl_flatMap, ← crcFold_eq_serial]

theorem crc4_eq_serial (start : Nibble) (value : BitVec 64) {bits : Nat} (h : bits ≤ 64) :
    crc4 start value bits =
      (bitsMsbFirst (4 * ((bits + 3) / 4)) (value.toNat % 2 ^ bits)).foldl serialBit start := by
  rw [crc4_eq_foldl start value h, foldl_crcFold_eq_serial]

/-- Whole nibbles need no padding. -/
theorem crc4_eq_serial_of_dvd (start : Nibble) (value : BitVec 64) {bits : Nat} (h : bits ≤ 64) (h4 : 4 ∣ bits) :
    crc4 start value bits = (bitsMsbFirst bits value.toNat).foldl serialBit start := by
  have hpad : 4 * ((bits + 3) / 4) = bits := by omega
  rw [crc4_eq_serial start value h, hpad, bitsMsbFirst_mod]

theorem crc4Range_eq_serial (start : Nibble) (bytes : List Byte) :
    crc4Range start bytes = (bytes.flatMap (fun b => bitsMsbFirst 8 b.toNat)).foldl serialBit start := by
  have hbyte : ∀ (c : Nibble) (b : Byte), crc4 c (b.setWidth 64) 8 = (bitsMsbFirst 8 b.toNat).foldl serialBit c := by
    intro c b
    rw [crc4_eq_serial_of_dvd c _ (by decide) (by decide), BitVec.toNat_setWidth_of_le (by decide)]
  simp only [crc4Range_eq_foldl, hbyte, List.foldl_flatMap]

/-- A value of whole bytes is its bytes, the most significant first (41_crc4.md R129). -/
theorem crc4_eq_crc4Range (c : Nibble) (v : BitVec 64) {k : Nat} (hk : k ≤ 8) :
    crc4 c v (8 * k) = crc4Range c ((List.range k).reverse.map (fun j => v.extractLsb' (8 * j) 8)) := by
  rw [crc4_eq_serial_of_dvd c v (by omega) (by omega), crc4Range_eq_serial, bitsMsbFirst_bytes]

/-- Two bytes in wire order are a value of 16 bits (41_crc4.md R129). -/
theorem crc4Range_two_bytes (c : Nibble) (b0 b1 : Byte) :
    crc4Range c [b0, b1] = crc4 c (BitVec.ofNat 64 (b0.toNat * 256 + b1.toNat)) 16 := by
  have h0 := b0.isLt
  have h1 := b1.isLt
  have hvalue : (BitVec.ofNat 64 (b0.toNat * 256 + b1.toNat)).toNat = b0.toNat * 256 + b1.toNat :=
    Nat.mod_eq_of_lt (by omega)
  have hbyte : ∀ i, ((BitVec.ofNat 64 (b0.toNat * 256 + b1.toNat)).extractLsb' i 8).toNat =
      (b0.toNat * 256 + b1.toNat) / 2 ^ i % 2 ^ 8 := by
    intro i
    rw [BitVec.extractLsb'_toNat, hvalue, Nat.shiftRight_eq_div_pow]
  have hhigh := BitVec.eq_of_toNat_eq ((hbyte 8).trans (by omega : _ = b0.toNat))
  have hlow := BitVec.eq_of_toNat_eq ((hbyte 0).trans (by omega : _ = b1.toNat))
  rw [crc4_eq_crc4Range c _ (k := 2) (by decide)]
  exact congrArg₂ (fun x y => crc4Range c [x, y]) hhigh.symm hlow.symm

/-! ## The algebra of the table -/

/-- The quotient of `i(x) * x^4` by `g(x)`: `x^4 / g(x)` begins `1 + x^-2 + x^-3`. -/
def crcQuotient (i : Nibble) : Nibble := i ^^^ (i >>> 2) ^^^ (i >>> 3)

theorem shiftLeft_eq_quotient_xor_crcT (i : Nibble) :
    (i.setWidth 8) <<< 4 = timesGenerator (crcQuotient i) ^^^ (crcT i).setWidth 8 := by
  revert i; decide

theorem crcT_xor (a b : Nibble) : crcT (a ^^^ b) = crcT a ^^^ crcT b := by revert a b; decide

theorem crcT_eq_zero_iff (a : Nibble) : crcT a = 0#4 ↔ a = 0#4 := by revert a; decide

/-- A linear map without a kernel is injective. -/
theorem crcT_injective {a b : Nibble} (h : crcT a = crcT b) : a = b := by
  rwa [← BitVec.xor_eq_zero_iff, ← crcT_xor, crcT_eq_zero_iff, BitVec.xor_eq_zero_iff] at h

theorem crcFold_left_injective {c c' d : Nibble} (h : crcFold c d = crcFold c' d) : c = c' :=
  (BitVec.xor_left_inj d).1 (crcT_injective h)

theorem crcFold_right_injective {c d d' : Nibble} (h : crcFold c d = crcFold c d') : d = d' :=
  (BitVec.xor_right_inj c).1 (crcT_injective h)

/-- The digit folded into both values cancels. -/
theorem crcFold_xor_crcFold (c c' d : Nibble) : crcFold c d ^^^ crcFold c' d = crcFold (c ^^^ c') 0#4 := by
  have hcancel : (c ^^^ d) ^^^ (c' ^^^ d) = c ^^^ c' := by
    rw [BitVec.xor_comm c' d, ← BitVec.xor_assoc, BitVec.xor_assoc c d d, BitVec.xor_self, BitVec.xor_zero]
  rw [crcFold, crcFold, crcFold, ← crcT_xor, hcancel, BitVec.xor_zero]

/-- The difference of two CRCs of one list: that of the starts, folded over as many zero bytes. -/
theorem crc4Range_xor_crc4Range (c c' : Nibble) (l : List Byte) :
    crc4Range c l ^^^ crc4Range c' l = crc4Range (c ^^^ c') (List.replicate l.length 0#8) := by
  induction l generalizing c c' with
  | nil => rfl
  | cons b bs ih =>
    rw [crc4Range_cons, crc4Range_cons, ih, crcFold_xor_crcFold, crcFold_xor_crcFold, List.length_cons,
      List.replicate_succ, crc4Range_cons]
    rfl

theorem crc4Range_start_injective {c c' : Nibble} {l : List Byte} (h : crc4Range c l = crc4Range c' l) : c = c' := by
  induction l generalizing c c' with
  | nil => exact h
  | cons b bs ih =>
    rw [crc4Range_cons, crc4Range_cons] at h
    exact crcFold_left_injective (crcFold_left_injective (ih h))

/-- Where two lists with the same CRC differ in one byte, its two folds agree. -/
theorem crcFold_eq_of_crc4Range_eq {c : Nibble} {as bs : List Byte} {b b' : Byte}
    (h : crc4Range c (as ++ b :: bs) = crc4Range c (as ++ b' :: bs)) :
    crcFold (crcFold (crc4Range c as) (b.extractLsb' 4 4)) (b.extractLsb' 0 4) =
      crcFold (crcFold (crc4Range c as) (b'.extractLsb' 4 4)) (b'.extractLsb' 0 4) := by
  rw [crc4Range_append, crc4Range_append, crc4Range_cons, crc4Range_cons] at h
  exact crc4Range_start_injective h

/-! ## CRC_VAL and CRC_RANGE -/

theorem State.crcValue_eq (s : State) :
    s.crcValue = BitVec.ofNat 64 (s.crcValueHi.toNat * 2 ^ 32 + s.crcValueLo.toNat) := by
  rw [Nat.mul_comm, ← toNat_append_eq_add, BitVec.ofNat_toNat, BitVec.setWidth_eq, crcValue]

theorem execCrcVal_invalidBits {s : State} (h : 64 < s.crcBits.toNat) :
    execCrcVal s = .next (s.withStatus .invalidBits) := if_pos h

theorem execCrcRange_ok {s : State} {bytes : List Byte} (hlen : s.srcLen.toNat = bytes.length)
    (hrange : s.inRange s.srcAddr.toNat s.srcLen.toNat = true) (hmem : s.mem.holds s.srcAddr.toNat bytes) :
    execCrcRange s = .next ((s.withCrcResult (crc4Range s.crcStart bytes)).withStatus .ok) := by
  have hread : s.mem.readBytes s.srcAddr.toNat s.srcLen.toNat = some bytes :=
    (Memory.readBytes_eq_some _ _ _ _).2 ⟨hlen.symm, hmem⟩
  rw [execCrcRange, if_pos hrange, hread]
  rfl

theorem execCrcRange_addrRange {s : State} (h : ¬s.inRange s.srcAddr.toNat s.srcLen.toNat = true) :
    execCrcRange s = .next (s.withStatus .addrRange) := if_neg h

theorem execCrcRange_uninitRead {s : State} (hrange : s.inRange s.srcAddr.toNat s.srcLen.toNat = true)
    (hunwritten : ∃ i, i < s.srcLen.toNat ∧ s.mem.read (s.srcAddr.toNat + i) = none) :
    execCrcRange s = .fault .uninitRead := by
  rw [execCrcRange, if_pos hrange, (Memory.readBytes_eq_none _ _ _).2 hunwritten]

/-! ## The obligations -/

/-- Settles O22. -/
theorem crc4FoldsNibblesMostSignificantFirst : Obligations.Crc4FoldsNibblesMostSignificantFirst :=
  fun start value _ h => crc4_eq_foldl start value h

/-- Settles O23: the two nibbles of a byte are two folds. -/
theorem crcRangeFoldsBytesHighNibbleFirst : Obligations.CrcRangeFoldsBytesHighNibbleFirst := by
  refine fun start bytes => ⟨crc4Range_eq_foldl start bytes, ?_⟩
  simp only [crc4Range_eq_foldl, crc4_byte, crcFold]

/-- Settles O25. -/
theorem crcEqualsBitSerialRegister : Obligations.CrcEqualsBitSerialRegister :=
  ⟨crc4Range_eq_serial, fun start value _ h => crc4_eq_serial start value h⟩

/-- Settles O27. -/
theorem crcRangeComposes : Obligations.CrcRangeComposes := crc4Range_append

/-- Settles O28. -/
theorem byteAlignedValueFoldsItsBytes : Obligations.ByteAlignedValueFoldsItsBytes :=
  ⟨fun c v _ _ hk => crc4_eq_crc4Range c v hk, crc4Range_two_bytes⟩

/-- Settles O29: the table is linear and injective, so a difference is neither lost nor dependent on the bytes folded. -/
theorem crcTableLinearAndDetectsNibbleErrors : Obligations.CrcTableLinearAndDetectsNibbleErrors := by
  refine ⟨crcT_xor, fun a b => crcT_injective, fun c₁ c₂ d₁ d₂ l h => ?_, fun c as bs b b' hone heq => ?_⟩
  · rw [crc4Range_xor_crc4Range, h, ← crc4Range_xor_crc4Range]
  · have hfold := crcFold_eq_of_crc4Range_eq heq
    by_cases hlow : b.extractLsb' 0 4 = b'.extractLsb' 0 4
    · rw [hlow] at hfold
      exact hone.1 hlow (crcFold_right_injective (crcFold_left_injective hfold))
    · have hhigh : b.extractLsb' 4 4 = b'.extractLsb' 4 4 := not_not.1 (mt hone.2 hlow)
      rw [hhigh] at hfold
      exact hlow (crcFold_right_injective hfold)

/-- Settles O30: the three outcomes of CRC_RANGE, told apart by the range check and by what MEM holds. -/
theorem crcRangeFoldsMemory : Obligations.CrcRangeFoldsMemory := by
  refine fun s => ⟨fun bytes hlen hfit hmem => ?_, fun hne hpast => ?_, fun hfit hunwritten => ?_⟩
  · exact execCrcRange_ok hlen ((State.inRange_iff s _ _).2 (hlen ▸ hfit)) hmem
  · exact execCrcRange_addrRange (by rw [State.inRange_iff]; omega)
  · exact execCrcRange_uninitRead ((State.inRange_iff s _ _).2 (.inr hfit)) hunwritten

/-- Settles O21. -/
theorem crcValWritesCrc4 : Obligations.CrcValWritesCrc4 := by
  refine fun s => ⟨fun hbits => ?_, execCrcVal_invalidBits⟩
  rw [← State.crcValue_eq]
  exact execCrcVal_ok hbits

/-- Settles O24. -/
theorem crcTableIsPolynomialRemainder : Obligations.CrcTableIsPolynomialRemainder :=
  ⟨rfl, fun i => ⟨crcQuotient i, shiftLeft_eq_quotient_xor_crcT i⟩⟩

/-- Settles O26. -/
theorem zeroLengthCrcIsIdentity : Obligations.ZeroLengthCrcIsIdentity := fun c v => ⟨crc4_zero_bits c v, crc4Range_nil c⟩

end Sys2Proof.Machine

/-! SUPPORT. The header encoder/decoder (42_header.md): the four fields as a partition of the 16 bits, the bytes of the zeroed
header, and each outcome of HDR_NEW, HDR_LOAD and HDR_STORE with the condition under which it comes. -/

namespace Sys2Proof.Machine

/-! ## The fields of a header -/

/-- The fields leave out no bit of a header (42_header.md R144). -/
theorem pack_fields (h : Header) :
    pack (getFlag h).toNat (getNameLen h).toNat (getMsgLen h).toNat (getCrc4 h).toNat = h := by
  have hlt := h.isLt
  apply BitVec.eq_of_toNat_eq
  rw [pack_toNat (by have := (getFlag h).isLt; omega) (by have := (getNameLen h).isLt; omega)
    (by have := (getMsgLen h).isLt; omega) (by have := (getCrc4 h).isLt; omega),
    getFlag_toNat, getNameLen_toNat, getMsgLen_toNat, getCrc4_toNat]
  omega

section packRanges

variable {f n m c : Nat} (hf : f ≤ 7) (hn : n ≤ 15) (hm : m ≤ 31) (hc : c ≤ 15)

include hf hn hm hc

theorem getFlag_pack : (getFlag (pack f n m c)).toNat = f := by
  rw [getFlag_toNat, pack_toNat hf hn hm hc]; omega

theorem getNameLen_pack : (getNameLen (pack f n m c)).toNat = n := by
  rw [getNameLen_toNat, pack_toNat hf hn hm hc]; omega

theorem getMsgLen_pack : (getMsgLen (pack f n m c)).toNat = m := by
  rw [getMsgLen_toNat, pack_toNat hf hn hm hc]; omega

theorem getCrc4_pack : (getCrc4 (pack f n m c)).toNat = c := by
  rw [getCrc4_toNat, pack_toNat hf hn hm hc]; omega

end packRanges

/-- Zeroing the `crc4` field leaves byte 0 and the low nibble of byte 1 (42_header.md R146). -/
theorem headerBytes_zeroedHeader (h : Header) :
    headerBytes (zeroedHeader h) = [h.extractLsb' 0 8, (h.extractLsb' 8 4).setWidth 8] := by
  have hnibble : h.extractLsb' 8 8 &&& 0x0F#8 = (h.extractLsb' 8 4).setWidth 8 := by
    apply BitVec.eq_of_toNat_eq
    rw [BitVec.toNat_and, BitVec.toNat_setWidth_of_le (by decide), BitVec.extractLsb'_toNat, BitVec.extractLsb'_toNat,
      show (0x0F#8).toNat = 2 ^ 4 - 1 from rfl, Nat.and_two_pow_sub_one_eq_mod]
    omega
  rw [← hnibble, ← headerBytes_zeroed, headerOfBytes_extract]

/-! ## HDR_NEW -/

theorem execHdrNew_ok {s : State} (hn : 1 ≤ s.nameLen.toNat) (hn' : s.nameLen.toNat ≤ 15) (hm : 1 ≤ s.msgLen.toNat)
    (hm' : s.msgLen.toNat ≤ 31) :
    execHdrNew s = .next ((s.withHdr (pack 5 s.nameLen.toNat s.msgLen.toNat 0)).withStatus .ok) :=
  if_neg (by simp only [Config.nameLenMax, Config.msgLenMax]; omega)

theorem execHdrNew_invalidLength {s : State}
    (h : s.nameLen.toNat = 0 ∨ 15 < s.nameLen.toNat ∨ s.msgLen.toNat = 0 ∨ 31 < s.msgLen.toNat) :
    execHdrNew s = .next (s.withStatus .invalidLength) := if_pos h

/-! ## HDR_LOAD -/

section hdrLoad

variable {s : State}

theorem execHdrLoad_addrRange (h : ¬s.inRange s.srcAddr.toNat s.srcLen.toNat = true) :
    execHdrLoad s = .next (s.withStatus .addrRange) := if_neg h

variable (hrange : s.inRange s.srcAddr.toNat s.srcLen.toNat = true)

include hrange

theorem execHdrLoad_truncatedHeader (hlen : s.srcLen.toNat < Config.headerSize) :
    execHdrLoad s = .next (s.withStatus .truncatedHeader) :=
  (if_pos hrange).trans (if_pos hlen)

theorem execHdrLoad_ok (hlen : Config.headerSize ≤ s.srcLen.toNat) {h : Header}
    (hread : s.mem.readHeader s.srcAddr.toNat = some h) :
    execHdrLoad s = .next ((s.withHdr h).withStatus .ok) := by
  rw [execHdrLoad, if_pos hrange, if_neg (Nat.not_lt.2 hlen), hread]
  rfl

theorem execHdrLoad_uninitRead (hlen : Config.headerSize ≤ s.srcLen.toNat)
    (hread : s.mem.readHeader s.srcAddr.toNat = none) :
    execHdrLoad s = .fault .uninitRead := by
  rw [execHdrLoad, if_pos hrange, if_neg (Nat.not_lt.2 hlen), hread]

end hdrLoad

/-! ## HDR_STORE -/

theorem execHdrStore_ok {s : State} (h : s.dstAddr.toNat + 2 ≤ s.memSize) :
    execHdrStore s = .next ((s.withMem (s.mem.writeBytes s.dstAddr.toNat (headerBytes s.hdr))).withStatus .ok) :=
  if_pos ((State.inRange_iff s _ _).2 (.inr h))

theorem execHdrStore_addrRange {s : State} (h : s.memSize < s.dstAddr.toNat + 2) :
    execHdrStore s = .next (s.withStatus .addrRange) := if_neg (State.not_inRange (by decide) h)

theorem Memory.holds_headerBytes (m : Memory) (a : Nat) (h : Header) :
    m.holds a (headerBytes h) ↔ m.read a = some (h.extractLsb' 0 8) ∧ m.read (a + 1) = some (h.extractLsb' 8 8) := by
  rw [headerBytes, Memory.holds_cons, Memory.holds_cons, and_iff_left (Memory.holds_nil m _)]

/-! ## The obligations -/

/-- Settles O31. -/
theorem hdrNewPacksLengths : Obligations.HdrNewPacksLengths := by
  refine fun s => ⟨fun hn hn' hm hm' => ⟨_, execHdrNew_ok hn hn' hm hm', rfl, ?_⟩, execHdrNew_invalidLength⟩
  exact pack_toNat (by decide) hn' hm' (by decide)

/-- Settles O32. -/
theorem headerFieldsTileHeader : Obligations.HeaderFieldsTileHeader :=
  ⟨pack_fields, fun _ _ _ _ hf hn hm hc =>
    ⟨getFlag_pack hf hn hm hc, getNameLen_pack hf hn hm hc, getMsgLen_pack hf hn hm hc, getCrc4_pack hf hn hm hc⟩⟩

/-- Settles O34: another `crc4` field is a `setCrc4`, which the zeroed header does not see. -/
theorem hdrChecksumIgnoresStoredField : Obligations.HdrChecksumIgnoresStoredField := by
  intro s c
  refine ⟨_, rfl, ?_, ?_⟩
  · rw [← headerBytes_zeroedHeader]
    exact execHdrChecksum_eq s
  · rw [← headerBytes_zeroedHeader, ← zeroedHeader_setCrc4 s.hdr c]
    exact execHdrChecksum_eq (s.withHdr (setCrc4 s.hdr c))

/-- Settles O35: the outcomes in the order of the checks. -/
theorem hdrLoadReadsTwoBytes : Obligations.HdrLoadReadsTwoBytes := by
  refine fun s => ⟨fun hne hpast => ?_, fun hfit hshort => ?_, fun hfit hlen => ?_⟩
  · exact execHdrLoad_addrRange (State.not_inRange hne hpast)
  · exact execHdrLoad_truncatedHeader ((State.inRange_iff s _ _).2 hfit) hshort
  · have hrange := (State.inRange_iff s _ _).2 (.inr hfit)
    refine ⟨fun b0 b1 h0 h1 => ?_, fun hunwritten => ?_⟩
    · exact ⟨_, execHdrLoad_ok hrange hlen (Memory.readHeader_of_reads h0 h1), rfl, header_toNat b0 b1⟩
    · exact execHdrLoad_uninitRead hrange hlen ((Memory.readHeader_eq_none _ _).2 hunwritten)

/-- Settles O36: what MEM holds after `writeBytes`, and what it leaves. -/
theorem hdrStoreWritesTwoBytes : Obligations.HdrStoreWritesTwoBytes := by
  refine fun s => ⟨fun hfit => ?_, execHdrStore_addrRange⟩
  obtain ⟨hlow, hhigh⟩ :=
    (Memory.holds_headerBytes _ _ s.hdr).1 (Memory.holds_writeBytes s.mem s.dstAddr.toNat (headerBytes s.hdr))
  have hother := Memory.sameOutside_writeBytes s.mem s.dstAddr.toNat (headerBytes s.hdr)
  rw [headerBytes_length] at hother
  exact ⟨_, execHdrStore_ok hfit, rfl, hlow, hhigh, fun x h0 h1 => hother x (by omega)⟩

/-- Settles O33: replacing the field by the same value twice is replacing it once. -/
theorem hdrSetCrcReplacesField : Obligations.HdrSetCrcReplacesField := by
  refine fun s => ⟨_, execHdrSetCrc_eq s, rfl, setCrc4_toNat s.hdr s.crcResult, ?_⟩
  refine (execHdrSetCrc_eq _).trans ?_
  rw [State.withStatus_hdr, State.withStatus_crcResult, State.withHdr_hdr, State.withHdr_crcResult, setCrc4_setCrc4]
  rfl

end Sys2Proof.Machine

/-! SUPPORT. The packet assembler/disassembler (43_packet.md): each outcome of PKT_ASM and PKT_DIS with the condition under which
it comes, the packet that PKT_DIS finds at `SRC_ADDR`, and what a change of one of its bytes does to it. -/

namespace Sys2Proof.Machine

/-! ## Bytes of MEM -/

/-- A write into a region that MEM holds replaces one byte of it. -/
theorem Memory.holds_write_set {m : Memory} {a : Nat} {l : List Byte} (h : m.holds a l) (i : Nat) (b : Byte) :
    (m.write (a + i) b).holds a (l.set i b) := by
  intro j hj
  rw [List.length_set] at hj
  rw [Memory.read_write, List.getElem_set, h j hj]
  by_cases hij : i = j
  · rw [if_pos (by omega), if_pos hij]
  · rw [if_neg (by omega), if_neg hij]

theorem Memory.holds_of_agree {m m' : Memory} {a : Nat} {l : List Byte} (h : m.holds a l)
    (hagree : ∀ x, a ≤ x → x < a + l.length → m'.read x = m.read x) : m'.holds a l :=
  fun i hi => (hagree (a + i) (by omega) (by omega)).trans (h i hi)

/-! ## Headers and their bytes -/

theorem headerWf_of_lengths {h : Header} (hflag : (getFlag h).toNat = Config.flag) (hn : 1 ≤ (getNameLen h).toNat)
    (hm : 1 ≤ (getMsgLen h).toNat) : headerWf h = true :=
  decide_eq_true ⟨hflag, fun e => by simp [e] at hn, fun e => by simp [e] at hm⟩

theorem headerWf_setCrc4 (h : Header) (c : Nibble) : headerWf (setCrc4 h c) = headerWf h := by
  rw [headerWf, headerWf, getFlag_setCrc4, getNameLen_setCrc4, getMsgLen_setCrc4]

theorem declaredSize_setCrc4 (h : Header) (c : Nibble) : declaredSize (setCrc4 h c) = declaredSize h := by
  rw [declaredSize, declaredSize, getNameLen_setCrc4, getMsgLen_setCrc4]

theorem eq_headerOfBytes {h : Header} {b0 b1 : Byte} (hh : h.toNat = b0.toNat + 256 * b1.toNat) : h = b1 ++ b0 :=
  BitVec.eq_of_toNat_eq (hh.trans (header_toNat b0 b1).symm)

theorem headerBytes_headerOfBytes (b0 b1 : Byte) : headerBytes (b1 ++ b0) = [b0, b1] := by
  rw [headerBytes, headerOfBytes_low, headerOfBytes_high]

/-- The flag is the low bits of byte 0 (42_header.md R140). -/
theorem getFlag_headerOfBytes (b0 b1 : Byte) : getFlag (b1 ++ b0) = b0.extractLsb' 0 3 := by
  conv_rhs => rw [← headerOfBytes_low b0 b1, BitVec.extractLsb'_extractLsb'_of_le (by decide)]
  rfl

/-- The `crc4` field is the high nibble of byte 1 (42_header.md R140). -/
theorem getCrc4_eq_highNibble (h : Header) : getCrc4 h = (h.extractLsb' 8 8).extractLsb' 4 4 := by
  apply BitVec.eq_of_toNat_eq
  rw [getCrc4_toNat, BitVec.extractLsb'_toNat, BitVec.extractLsb'_toNat, Nat.shiftRight_eq_div_pow,
    Nat.shiftRight_eq_div_pow]
  omega

/-- To change the high nibble of byte 1 is to change the `crc4` field. -/
theorem headerBytes_setCrc4_highNibble {h : Header} {b : Byte}
    (hlow : (h.extractLsb' 8 8).extractLsb' 0 4 = b.extractLsb' 0 4) :
    headerBytes (setCrc4 h (b.extractLsb' 4 4)) = [h.extractLsb' 0 8, b] := by
  have hlow' := congrArg BitVec.toNat hlow
  simp only [BitVec.extractLsb'_toNat, Nat.shiftRight_eq_div_pow] at hlow'
  have hset : setCrc4 h (b.extractLsb' 4 4) = b ++ h.extractLsb' 0 8 := by
    apply BitVec.eq_of_toNat_eq
    have hb := b.isLt
    rw [setCrc4_toNat, header_toNat, BitVec.extractLsb'_toNat, BitVec.extractLsb'_toNat, Nat.shiftRight_eq_div_pow,
      Nat.shiftRight_zero]
    omega
  rw [hset, headerBytes_headerOfBytes]

/-- Filling in the empty `crc4` field adds it to the header (42_header.md R141). -/
theorem packetHeader_toNat {name chunk : List Byte} (hn : name.length ≤ 15) (hm : chunk.length ≤ 31) :
    (packetHeader name chunk).toNat =
      (pack Config.flag name.length chunk.length 0).toNat + 4096 * (getCrc4 (packetHeader name chunk)).toNat := by
  have hlt : (pack Config.flag name.length chunk.length 0).toNat < 4096 := by
    rw [pack_toNat (by decide) hn hm (by decide), Config.flag]; omega
  rw [packetHeader, getCrc4_setCrc4, setCrc4_toNat, Nat.mod_eq_of_lt hlt]

theorem headerBytes_of_toNat {h : Header} {x c : Nat} (hh : h.toNat = x + 4096 * c) :
    headerBytes h = [BitVec.ofNat 8 (x % 256), BitVec.ofNat 8 (x / 256 + 16 * c)] := by
  have hlow : (x + 4096 * c) % 256 = x % 256 := by omega
  have hhigh : (x + 4096 * c) / 256 = x / 256 + 16 * c := by omega
  rw [headerBytes_eq, hh, hlow, hhigh]

/-! ## PKT_ASM -/

section pktAsm

variable {s : State}

theorem execPktAsm_emptyName (h : s.nameLen.toNat = 0) : execPktAsm s = .next (s.withStatus .emptyInput) := if_pos h

theorem execPktAsm_nameTooLong (h : 15 < s.nameLen.toNat) : execPktAsm s = .next (s.withStatus .nameTooLong) :=
  (if_neg (by omega)).trans (if_pos h)

variable (hn : 1 ≤ s.nameLen.toNat) (hn' : s.nameLen.toNat ≤ Config.nameLenMax)

include hn hn'

theorem execPktAsm_emptyMsg (hm : s.msgLen.toNat = 0) : execPktAsm s = .next (s.withStatus .emptyInput) :=
  (if_neg (by omega)).trans ((if_neg (Nat.not_lt.2 hn')).trans (if_pos hm))

variable (hm : 1 ≤ s.msgLen.toNat)

include hm

theorem execPktAsm_addrRange (hpast : s.memSize < s.nameAddr.toNat + s.nameLen.toNat ∨
      s.memSize < s.msgAddr.toNat + s.chunkLen ∨ s.memSize < s.dstAddr.toNat + s.asmSize) :
    execPktAsm s = .next (s.withStatus .addrRange) := by
  have hchunk : 1 ≤ s.chunkLen := Nat.le_min.2 ⟨hm, by decide⟩
  have hsize : 1 ≤ s.asmSize := le_add_left hchunk
  rw [execPktAsm, if_neg (by omega), if_neg (Nat.not_lt.2 hn'), if_neg (by omega)]
  refine if_neg ?_
  simp only [Bool.and_eq_true, State.inRange_iff]
  omega

theorem execPktAsm_uninitRead (hname : s.nameAddr.toNat + s.nameLen.toNat ≤ s.memSize)
    (hmsg : s.msgAddr.toNat + s.chunkLen ≤ s.memSize) (hdst : s.dstAddr.toNat + s.asmSize ≤ s.memSize)
    (hnone : s.mem.readBytes s.nameAddr.toNat s.nameLen.toNat = none ∨
      s.mem.readBytes s.msgAddr.toNat s.chunkLen = none) :
    execPktAsm s = .fault .uninitRead := by
  rw [execPktAsm, if_neg (by omega), if_neg (Nat.not_lt.2 hn'), if_neg (by omega), (State.inRange_iff s _ _).2 (.inr hname),
    (State.inRange_iff s _ _).2 (.inr hmsg), (State.inRange_iff s _ _).2 (.inr hdst)]
  obtain hnone | hnone := hnone
  · rw [hnone]; rfl
  · rw [hnone]; cases s.mem.readBytes s.nameAddr.toNat s.nameLen.toNat <;> rfl

end pktAsm

/-! ## PKT_DIS: the checks of the header -/

/-- A well-formed header (42_header.md R143) passes the checks of its flag and of its lengths. -/
theorem ite_of_headerWf {α : Type} {h : Header} (hwf : headerWf h = true) (badFlag badLength o : α) :
    (if (getFlag h).toNat ≠ Config.flag then badFlag
      else if getNameLen h = 0#4 ∨ getMsgLen h = 0#5 then badLength else o) = o := by
  obtain ⟨hflag, hn, hm⟩ := of_decide_eq_true hwf
  exact (if_neg (not_not.2 hflag)).trans (if_neg (not_or.2 ⟨hn, hm⟩))

section pktDis

variable {s : State}

theorem execPktDis_addrRange (h : ¬s.inRange s.srcAddr.toNat s.srcLen.toNat = true) :
    execPktDis s = .next (s.withStatus .addrRange) := if_neg h

variable (hrange : s.inRange s.srcAddr.toNat s.srcLen.toNat = true)

include hrange

theorem execPktDis_truncatedHeader (hlen : s.srcLen.toNat < Config.headerSize) :
    execPktDis s = .next (s.withStatus .truncatedHeader) := (if_pos hrange).trans (if_pos hlen)

variable (hlen : Config.headerSize ≤ s.srcLen.toNat)

include hlen

theorem execPktDis_headerUninit (hread : s.mem.readHeader s.srcAddr.toNat = none) :
    execPktDis s = .fault .uninitRead := by
  rw [execPktDis, if_pos hrange, if_neg (Nat.not_lt.2 hlen), hread]

variable {h : Header} (hread : s.mem.readHeader s.srcAddr.toNat = some h)

include hread

theorem execPktDis_invalidFlag (hflag : (getFlag h).toNat ≠ 5) :
    execPktDis s = .next (s.withStatus .invalidFlag) := by
  rw [execPktDis, if_pos hrange, if_neg (Nat.not_lt.2 hlen), hread]
  exact if_pos hflag

theorem execPktDis_invalidLength (hflag : (getFlag h).toNat = 5) (hzero : getNameLen h = 0#4 ∨ getMsgLen h = 0#5) :
    execPktDis s = .next (s.withStatus .invalidLength) := by
  rw [execPktDis, if_pos hrange, if_neg (Nat.not_lt.2 hlen), hread]
  exact (if_neg (not_not.2 hflag)).trans (if_pos hzero)

variable (hwf : headerWf h = true)

include hwf

theorem execPktDis_truncatedPacket (hsize : s.srcLen.toNat < declaredSize h) :
    execPktDis s = .next (s.withStatus .truncatedPacket) := by
  rw [execPktDis, if_pos hrange, if_neg (Nat.not_lt.2 hlen), hread]
  exact (ite_of_headerWf hwf _ _ _).trans (if_pos hsize)

theorem execPktDis_bodyUninit (hsize : declaredSize h ≤ s.srcLen.toNat)
    (hbody : s.mem.readBytes (s.srcAddr.toNat + 2) ((getNameLen h).toNat + (getMsgLen h).toNat) = none) :
    execPktDis s = .fault .uninitRead := by
  rw [execPktDis, if_pos hrange, if_neg (Nat.not_lt.2 hlen), hread]
  refine (ite_of_headerWf hwf _ _ _).trans ((if_neg (Nat.not_lt.2 hsize)).trans ?_)
  rw [hbody]

end pktDis

/-! ## PKT_DIS: the checksum -/

/-- The checks of PKT_DIS before that of the checksum pass (43_packet.md R175), on a packet of header `h` and the bytes `body`
after it. -/
structure PacketAt (s : State) (h : Header) (body : List Byte) : Prop where
  inRange : s.inRange s.srcAddr.toNat s.srcLen.toNat = true
  wf : headerWf h = true
  length_body : body.length = (getNameLen h).toNat + (getMsgLen h).toNat
  size_le : declaredSize h ≤ s.srcLen.toNat
  holds : s.mem.holds s.srcAddr.toNat (headerBytes h ++ body)

namespace PacketAt

variable {s : State} {h : Header} {body : List Byte} (p : PacketAt s h body)

include p

theorem headerSize_le_srcLen : Config.headerSize ≤ s.srcLen.toNat := by
  have hsize := p.size_le
  rw [declaredSize] at hsize
  omega

theorem declaredSize_eq : declaredSize h = 2 + body.length := by
  rw [declaredSize, p.length_body, Nat.add_assoc]; rfl

theorem holds_body : s.mem.holds (s.srcAddr.toNat + 2) body := ((Memory.holds_append _ _ _ _).1 p.holds).2

theorem readHeader_eq : s.mem.readHeader s.srcAddr.toNat = some h :=
  (Memory.readHeader_eq_some _ _ h).2 ((Memory.holds_append _ _ _ _).1 p.holds).1

theorem readBytes_body :
    s.mem.readBytes (s.srcAddr.toNat + 2) ((getNameLen h).toNat + (getMsgLen h).toNat) = some body :=
  (Memory.readBytes_eq_some _ _ _ _).2 ⟨p.length_body, p.holds_body⟩

theorem execPktDis_eq_ok (hcrc : crc4Range 0#4 (headerBytes (zeroedHeader h) ++ body) = getCrc4 h) :
    execPktDis s = .next ((((s.withHdr h).withCrcResult (getCrc4 h)).withResults (declaredSize h) (s.srcAddr.toNat + 2)
      (s.srcAddr.toNat + 2 + (getNameLen h).toNat) (getMsgLen h).toNat).withStatus .ok) :=
  execPktDis_ok p.inRange p.readHeader_eq p.wf p.size_le p.readBytes_body hcrc

theorem execPktDis_eq_checksumMismatch
    (hcrc : crc4Range 0#4 (headerBytes (zeroedHeader h) ++ body) ≠ getCrc4 h) :
    execPktDis s = .next (s.withStatus .checksumMismatch) := by
  rw [execPktDis, if_pos p.inRange, if_neg (Nat.not_lt.2 p.headerSize_le_srcLen), p.readHeader_eq]
  refine (ite_of_headerWf p.wf _ _ _).trans ((if_neg (Nat.not_lt.2 p.size_le)).trans ?_)
  rw [p.readBytes_body]
  exact if_pos hcrc

theorem read_high : s.mem.read (s.srcAddr.toNat + 1) = some (h.extractLsb' 8 8) :=
  p.holds 1 (by rw [List.length_append, headerBytes_length]; omega)

theorem read_body (i : Nat) (hi : i < body.length) : s.mem.read (s.srcAddr.toNat + 2 + i) = some body[i] :=
  p.holds_body i hi

/-! ### One byte of the packet changed -/

theorem holds_write (i : Nat) (b : Byte) :
    (s.mem.write (s.srcAddr.toNat + i) b).holds s.srcAddr.toNat ((headerBytes h ++ body).set i b) :=
  Memory.holds_write_set p.holds i b

theorem readHeader_write_low (b : Byte) :
    (s.mem.write s.srcAddr.toNat b).readHeader s.srcAddr.toNat = some (h.extractLsb' 8 8 ++ b) := by
  have hholds : (s.mem.write s.srcAddr.toNat b).holds s.srcAddr.toNat ([b, h.extractLsb' 8 8] ++ body) := p.holds_write 0 b
  rw [Memory.readHeader_eq_some, headerBytes_headerOfBytes]
  exact ((Memory.holds_append _ _ _ _).1 hholds).1

theorem withMem_write_crc4 {b : Byte} (hlow : (h.extractLsb' 8 8).extractLsb' 0 4 = b.extractLsb' 0 4) :
    PacketAt (s.withMem (s.mem.write (s.srcAddr.toNat + 1) b)) (setCrc4 h (b.extractLsb' 4 4)) body where
  inRange := p.inRange
  wf := (headerWf_setCrc4 h _).trans p.wf
  length_body := by rw [getNameLen_setCrc4, getMsgLen_setCrc4, p.length_body]
  size_le := (declaredSize_setCrc4 h _).trans_le p.size_le
  holds := by rw [headerBytes_setCrc4_highNibble hlow]; exact p.holds_write 1 b

theorem withMem_write_body (i : Nat) (b : Byte) :
    PacketAt (s.withMem (s.mem.write (s.srcAddr.toNat + 2 + i) b)) h (body.set i b) where
  inRange := p.inRange
  wf := p.wf
  length_body := by rw [List.length_set, p.length_body]
  size_le := p.size_le
  holds := by rw [Nat.add_assoc, Nat.add_comm 2]; exact p.holds_write (i + 2) b

end PacketAt

/-- The shape of the commands' case lemmas: a command without an error code has had its own effect. -/
theorem effect_of_err_eq_zero {s t : State} {effect : Prop}
    (h : (∃ e : ErrCode, e.raised ∧ t = s.withStatus e) ∨ effect) (herr : t.err = 0#4) : effect := by
  obtain ⟨e, he, rfl⟩ | h := h
  · exact absurd ((State.err_withStatus s e).symm.trans herr) (ErrCode.code_ne_zero he)
  · exact h

/-- Where PKT_DIS succeeds there is a packet with its own checksum. -/
theorem packetAt_of_execPktDis {s t : State} (h : execPktDis s = .next t) (herr : t.err = 0#4) :
    ∃ hd body, PacketAt s hd body ∧ crc4Range 0#4 (headerBytes (zeroedHeader hd) ++ body) = getCrc4 hd ∧
      t.resSize = BitVec.ofNat 32 (declaredSize hd) := by
  obtain ⟨hd, body, hrange, hread, hwf, hsize, hbody, hcrc, rfl⟩ := effect_of_err_eq_zero (execPktDis_cases h) herr
  refine ⟨hd, body, ⟨hrange, hwf, Memory.readBytes_length hbody, hsize, ?_⟩, hcrc, rfl⟩
  exact (Memory.holds_append _ _ _ _).2 ⟨(Memory.readHeader_eq_some _ _ _).1 hread, Memory.holds_of_readBytes hbody⟩

/-- A change within one nibble of one byte changes the CRC (41_crc4.md R130). -/
theorem crc4Range_ne_of_one_nibble {c : Nibble} {l : List Byte} {i : Nat} (hi : i < l.length) {b : Byte}
    (hone : (l[i].extractLsb' 0 4 = b.extractLsb' 0 4) ↔ ¬(l[i].extractLsb' 4 4 = b.extractLsb' 4 4)) :
    crc4Range c (l.set i b) ≠ crc4Range c l := by
  obtain ⟨-, -, -, hdetects⟩ := crcTableLinearAndDetectsNibbleErrors
  have hsplit : l = l.take i ++ l[i] :: l.drop (i + 1) := by simp
  rw [List.set_eq_take_append_cons_drop, if_pos hi]
  conv_rhs => rw [hsplit]
  exact (hdetects c _ _ _ _ hone).symm

/-- PKT_DIS at a packet of a name and a chunk (43_packet.md R175), whatever follows the packet (R176). -/
theorem execPktDis_of_holds {s : State} {h : Header} {name chunk : List Byte} (hwf : headerWf h = true)
    (hname : (getNameLen h).toNat = name.length) (hchunk : (getMsgLen h).toNat = chunk.length)
    (hcrc : crc4Range 0#4 (headerBytes (zeroedHeader h) ++ (name ++ chunk)) = getCrc4 h)
    (hlen : 2 + name.length + chunk.length ≤ s.srcLen.toNat) (hfit : s.srcAddr.toNat + s.srcLen.toNat ≤ s.memSize)
    (hholds : s.mem.holds s.srcAddr.toNat (headerBytes h ++ (name ++ chunk))) :
    execPktDis s = .next ((((s.withHdr h).withCrcResult (getCrc4 h)).withResults (2 + name.length + chunk.length)
      (s.srcAddr.toNat + 2) (s.srcAddr.toNat + 2 + name.length) chunk.length).withStatus .ok) := by
  have hsize : declaredSize h = 2 + name.length + chunk.length := by rw [declaredSize, hname, hchunk]; rfl
  have hpacket : PacketAt s h (name ++ chunk) := {
    inRange := (State.inRange_iff s _ _).2 (.inr hfit)
    wf := hwf
    length_body := by rw [List.length_append, hname, hchunk]
    size_le := hsize.trans_le hlen
    holds := hholds }
  have hexec := hpacket.execPktDis_eq_ok hcrc
  rwa [hsize, hname, hchunk] at hexec

/-- A result register keeps a number of 32 bits as it is (10_state.md R41 to R44). -/
theorem toNat_ofNat_register {x : Nat} (hx : x < 2 ^ 32) : (BitVec.ofNat 32 x).toNat = x := by
  rw [BitVec.toNat_ofNat, Nat.mod_eq_of_lt hx]

/-! ## The obligations -/

/-- Settles O37: what MEM holds after `writeBytes`; the sources are read before, so no overlap matters. -/
theorem pktAsmBuildsPacket : Obligations.PktAsmBuildsPacket := by
  intro s name chunk hname hn hn' hm hchunk hnameFit hmsgFit hdstFit hholdsName hholdsChunk
  have hm' : chunk.length ≤ 31 := hchunk.trans_le (Nat.min_le_right _ _)
  have hk : s.chunkLen = chunk.length := hchunk.symm
  have hsize : s.asmSize = 2 + name.length + chunk.length := by rw [State.asmSize, hname, hk]; rfl
  have hheader := packetHeader_toNat hn' hm'
  have hexec := execPktAsm_ok (s := s) (by omega) (by omega) hm (by omega) (by omega) (by omega)
    (hname ▸ Memory.readBytes_of_holds hholdsName) (hk ▸ Memory.readBytes_of_holds hholdsChunk)
  rw [hsize, hname, hk] at hexec
  refine ⟨_, (pack Config.flag name.length chunk.length 0).toNat, getCrc4 (packetHeader name chunk), hexec,
    pack_toNat (by decide) hn' hm' (by decide), ?_, ?_, ?_, ?_⟩
  · rw [← headerBytes_eq, packetHeader_crc]
  · rw [← headerBytes_of_toNat hheader]
    exact Memory.holds_writeBytes _ _ _
  · rw [← packetBytes_length]
    exact Memory.sameOutside_writeBytes _ _ _
  · rw [← hheader, BitVec.ofNat_toNat, BitVec.setWidth_eq]
    rfl

/-- Settles O38: the outcomes in the order of the checks. -/
theorem pktAsmChecksInOrder : Obligations.PktAsmChecksInOrder := by
  refine fun s => ⟨execPktAsm_emptyName, execPktAsm_nameTooLong, fun hn hn' => ⟨execPktAsm_emptyMsg hn hn', fun hm =>
    ⟨execPktAsm_addrRange hn hn' hm, fun hname hmsg hdst hunwritten => ?_⟩⟩⟩
  refine execPktAsm_uninitRead hn hn' hm hname hmsg hdst ?_
  rw [Memory.readBytes_eq_none, Memory.readBytes_eq_none]
  exact exists_or.1 hunwritten

/-- Settles O39: nothing that PKT_DIS reads lies after the packet. -/
theorem pktDisSplitsWellFormedPacket : Obligations.PktDisSplitsWellFormedPacket := by
  intro s b0 b1 name chunk h hh hflag hname hn hchunk hm hcrc hlen hfit hholds
  obtain rfl := eq_headerOfBytes hh
  refine execPktDis_of_holds (headerWf_of_lengths hflag (hname ▸ hn) (hchunk ▸ hm)) hname hchunk ?_ hlen hfit ?_
  · rw [headerBytes_zeroed, hcrc, List.append_assoc]
  · rwa [headerBytes_headerOfBytes, ← List.append_assoc]

/-- Settles O40: the outcomes in the order of the checks. -/
theorem pktDisChecksInOrder : Obligations.PktDisChecksInOrder := by
  refine fun s => ⟨fun hne hpast => execPktDis_addrRange (State.not_inRange hne hpast), fun hfit hlen =>
    execPktDis_truncatedHeader ((State.inRange_iff s _ _).2 hfit) hlen, fun hfit hlen => ?_⟩
  have hrange := (State.inRange_iff s _ _).2 (.inr hfit)
  refine ⟨fun hunwritten => execPktDis_headerUninit hrange hlen ((Memory.readHeader_eq_none _ _).2 hunwritten), ?_⟩
  intro b0 b1 h h0 h1 hh
  obtain rfl := eq_headerOfBytes hh
  have hread := Memory.readHeader_of_reads h0 h1
  refine ⟨execPktDis_invalidFlag hrange hlen hread, execPktDis_invalidLength hrange hlen hread, fun hflag hn hm => ?_⟩
  have hwf : headerWf (b1 ++ b0) = true := decide_eq_true ⟨hflag, hn, hm⟩
  refine ⟨execPktDis_truncatedPacket hrange hlen hread hwf, fun hsize => ⟨fun hunwritten => ?_, ?_⟩⟩
  · exact execPktDis_bodyUninit hrange hlen hread hwf hsize ((Memory.readBytes_eq_none _ _ _).2 hunwritten)
  · intro body hbody hholds hcrc
    have hpacket : PacketAt s (b1 ++ b0) body :=
      ⟨hrange, hwf, hbody, hsize,
        (Memory.holds_append _ _ _ _).2 ⟨(Memory.readHeader_eq_some _ _ _).1 hread, hholds⟩⟩
    exact hpacket.execPktDis_eq_checksumMismatch (by rwa [headerBytes_zeroed])

/-- Settles O48: the packet laid out is a packet for PKT_DIS, and within `2^32` bytes no result register wraps. -/
theorem assembledPacketDisassembles : Obligations.AssembledPacketDisassembles := by
  intro s t u hmem hasm herr hagree hsrc hlen hfit
  obtain ⟨name, chunk, hn, hn', hm, -, -, hdst, hname, hchunk, rfl⟩ := effect_of_err_eq_zero (execPktAsm_cases hasm) herr
  have hnl := Memory.readBytes_length hname
  have hkl := Memory.readBytes_length hchunk
  have hk : 1 ≤ s.chunkLen ∧ s.chunkLen ≤ 31 := ⟨Nat.le_min.2 ⟨hm, by decide⟩, Nat.min_le_right _ _⟩
  have hsize : s.asmSize = 2 + s.nameLen.toNat + s.chunkLen := rfl
  rw [State.withStatus_resSize, State.withResults_resSize, toNat_ofNat_register (by omega)] at hagree hlen
  have hholds : u.mem.holds s.dstAddr.toNat (headerBytes (packetHeader name chunk) ++ (name ++ chunk)) := by
    rw [← List.append_assoc, ← packetBytes]
    refine Memory.holds_of_agree (Memory.holds_writeBytes s.mem s.dstAddr.toNat (packetBytes name chunk)) ?_
    rwa [packetBytes_length, hnl, hkl, ← hsize]
  obtain ⟨-, hbody⟩ := (Memory.holds_append _ _ _ _).1 hholds
  obtain ⟨hholdsName, hholdsChunk⟩ := (Memory.holds_append _ _ _ _).1 hbody
  rw [headerBytes_length] at hholdsName hholdsChunk
  obtain ⟨-, hnf, hmf, -⟩ := packetHeader_fields (name := name) (chunk := chunk) (by omega) (by omega)
  have hexec := execPktDis_of_holds (s := u) (packetHeader_wf (by omega) (by omega) (by omega) (by omega)) hnf hmf
    (packetHeader_checksum (by omega) (by omega)) (by omega) hfit (hsrc ▸ hholds)
  rw [hnl, hkl, ← hsize, hsrc] at hexec
  refine ⟨_, hexec, State.err_withStatus _ _, rfl, rfl, rfl, rfl, rfl, rfl, ?_, ?_⟩
  · show u.mem.readBytes (BitVec.ofNat 32 (s.dstAddr.toNat + 2)).toNat (getNameLen (packetHeader name chunk)).toNat = _
    rw [toNat_ofNat_register (by omega), hnf, Memory.readBytes_of_holds hholdsName, hname]
  · show u.mem.readBytes (BitVec.ofNat 32 (s.dstAddr.toNat + 2 + s.nameLen.toNat)).toNat
      (BitVec.ofNat 32 s.chunkLen).toNat = s.mem.readBytes s.msgAddr.toNat s.chunkLen
    rw [toNat_ofNat_register (by omega), toNat_ofNat_register (by omega), hchunk, ← hnl, ← hkl,
      Memory.readBytes_of_holds hholdsChunk]

/-- Settles O49: after each change there is a packet still, but for its flag or its checksum. -/
theorem pktDisDetectsCorruption : Obligations.PktDisDetectsCorruption := by
  intro s t x b b' hdis herr hsrcLen hb
  obtain ⟨h, body, hpacket, hcrc, hsize⟩ := packetAt_of_execPktDis hdis herr
  refine ⟨?_, ?_, ?_⟩
  · rintro rfl - hflag
    refine execPktDis_invalidFlag (s := s.withMem _) hpacket.inRange hpacket.headerSize_le_srcLen
      (hpacket.readHeader_write_low b') ?_
    rwa [getFlag_headerOfBytes]
  · rintro rfl hlow hhigh
    obtain rfl : h.extractLsb' 8 8 = b := Option.some.inj (hpacket.read_high.symm.trans hb)
    refine (hpacket.withMem_write_crc4 hlow).execPktDis_eq_checksumMismatch ?_
    rw [zeroedHeader_setCrc4, getCrc4_setCrc4, hcrc, getCrc4_eq_highNibble]
    exact hhigh
  · intro hle hlt hone
    obtain ⟨i, rfl⟩ := Nat.exists_eq_add_of_le hle
    have hi : i < body.length := by
      have hle : s.srcLen.toNat ≤ declaredSize h := by
        rw [hsrcLen, hsize, BitVec.toNat_ofNat]
        exact Nat.mod_le _ _
      rw [hpacket.declaredSize_eq] at hle
      omega
    obtain rfl : body[i] = b := Option.some.inj ((hpacket.read_body i hi).symm.trans hb)
    refine (hpacket.withMem_write_body i b').execPktDis_eq_checksumMismatch ?_
    rw [← hcrc, crc4Range_append, crc4Range_append]
    exact crc4Range_ne_of_one_nibble hi hone

end Sys2Proof.Machine

/-! SUPPORT. The host procedures (44_host_framer.md): the chunks of a text, one round of each procedure's loop, and what a whole
loop does to a text or to a run of packets. -/

namespace Sys2Proof.Machine

/-! ## The chunks of a text (R210) -/

theorem chunksUpTo_nil (rounds : Nat) : chunksUpTo rounds [] = [] := by cases rounds <;> rfl

section chunks

variable {rounds : Nat} {text : List Byte}

theorem length_chunksUpTo (h : text.length ≤ rounds) : (chunksUpTo rounds text).length = packetCount text.length := by
  induction rounds generalizing text with
  | zero => rw [List.length_eq_zero_iff.1 (Nat.le_zero.1 h)]; rfl
  | succ rounds ih =>
    obtain rfl | hne := eq_or_ne text []
    · rfl
    · have hpos := List.length_pos_iff.2 hne
      have hdrop := List.length_drop (i := 31) (l := text)
      rw [chunksUpTo_succ rounds text hpos, List.length_cons, ih (by omega)]
      simp only [packetCount, Config.msgLenMax]
      omega

theorem flatten_chunksUpTo (h : text.length ≤ rounds) : (chunksUpTo rounds text).flatten = text := by
  induction rounds generalizing text with
  | zero => rw [List.length_eq_zero_iff.1 (Nat.le_zero.1 h)]; rfl
  | succ rounds ih =>
    obtain rfl | hne := eq_or_ne text []
    · rfl
    · have hpos := List.length_pos_iff.2 hne
      rw [chunksUpTo_succ rounds text hpos, List.flatten_cons, ih (by rw [List.length_drop]; omega),
        List.take_append_drop]

/-- Chunk `k` starts `31 * k` bytes into the text. -/
theorem eq_of_getElem?_chunksUpTo {k : Nat} {c : List Byte} (h : (chunksUpTo rounds text)[k]? = some c) :
    31 * k < text.length ∧ c = (text.drop (31 * k)).take 31 := by
  induction rounds generalizing text k with
  | zero => cases h
  | succ rounds ih =>
    obtain rfl | hne := eq_or_ne text []
    · cases h
    · have hpos := List.length_pos_iff.2 hne
      rw [chunksUpTo_succ rounds text hpos] at h
      cases k with
      | zero => exact ⟨hpos, (Option.some.inj h).symm⟩
      | succ k =>
        obtain ⟨hlt, hc⟩ := ih h
        rw [List.length_drop] at hlt
        rw [List.drop_drop] at hc
        exact ⟨by omega, by rw [hc, Nat.mul_succ, Nat.add_comm]⟩

theorem length_of_getElem?_chunksUpTo {k : Nat} {c : List Byte} (h : (chunksUpTo rounds text)[k]? = some c) :
    31 * k < text.length ∧ c.length = min 31 (text.length - 31 * k) := by
  obtain ⟨hlt, rfl⟩ := eq_of_getElem?_chunksUpTo h
  exact ⟨hlt, by rw [List.length_take, List.length_drop]⟩

theorem length_of_mem_chunksUpTo {c : List Byte} (h : c ∈ chunksUpTo rounds text) : 1 ≤ c.length ∧ c.length ≤ 31 := by
  obtain ⟨k, hk⟩ := List.mem_iff_getElem?.1 h
  obtain ⟨hlt, hlen⟩ := length_of_getElem?_chunksUpTo hk
  omega

end chunks

/-- Every packet carries the whole name (R211). -/
theorem length_flatMap_packetBytes (name : List Byte) (chunks : List (List Byte)) :
    (chunks.flatMap (packetBytes name)).length = chunks.flatten.length + chunks.length * (2 + name.length) := by
  induction chunks with
  | nil => simp
  | cons c chunks ih =>
    rw [List.flatMap_cons, List.length_append, ih, packetBytes_length, List.flatten_cons, List.length_append,
      List.length_cons, Nat.succ_mul]
    omega

theorem length_flatMap_textChunks (name text : List Byte) :
    ((textChunks text).flatMap (packetBytes name)).length = encodedSize name.length text.length := by
  rw [length_flatMap_packetBytes, textChunks, flatten_chunksUpTo le_rfl, length_chunksUpTo le_rfl]
  rfl

theorem textChunks_ne_nil {text : List Byte} (h : 1 ≤ text.length) : textChunks text ≠ [] := by
  cases text with
  | nil => exact absurd h (by decide)
  | cons b bs => exact List.cons_ne_nil _ _

section textPackets

variable {name text : List Byte} (hn' : name.length ≤ 15)

include hn'

theorem packetWf_of_mem_textPackets (hn : 1 ≤ name.length) {p : List Byte}
    (hp : p ∈ (textChunks text).map (packetBytes name)) : packetWf p = true ∧ packetName p = name := by
  obtain ⟨c, hc, rfl⟩ := List.mem_map.1 hp
  obtain ⟨hc1, hc31⟩ := length_of_mem_chunksUpTo hc
  exact ⟨packetWf_packetBytes hn hn' hc1 hc31, packetName_packetBytes hn' hc31⟩

theorem flatMap_packetChunk_textPackets : ((textChunks text).map (packetBytes name)).flatMap packetChunk = text := by
  have hid : ∀ c ∈ textChunks text, packetChunk (packetBytes name c) = id c :=
    fun c hc => packetChunk_packetBytes hn' (length_of_mem_chunksUpTo hc).2
  rw [List.flatMap_map, List.flatMap_congr hid, List.flatMap_id]
  exact flatten_chunksUpTo le_rfl

end textPackets

/-! ## HOST_ENCODE -/

section encode

variable {name rest : List Byte} {na ra wa : Nat} {s : State}

/-- The preconditions leave room for no text of `2^32` bytes: the output lies apart from it (log entry 11). -/
theorem encodePre_bounds (hmem : s.memSize ≤ 2 ^ 32) (hpre : encodePre name rest na ra wa s = true)
    (hn : 1 ≤ name.length) (hr : 1 ≤ rest.length) :
    na < 2 ^ 32 ∧ ra < 2 ^ 32 ∧ rest.length < 2 ^ 32 ∧ wa < 2 ^ 32 ∧ encodedSize name.length rest.length < 2 ^ 32 := by
  obtain ⟨hnameFit, hrestFit, houtFit, -, -, hnameApart, hrestApart⟩ := encodePre_iff.1 hpre
  have hsize := encodedSize_step name.length rest.length hr
  omega

/-- PKT_ASM with operands that meet the preconditions does not fail (R203), and takes the next chunk. -/
theorem execPktAsm_of_encodePre (hpre : encodePre name rest s.nameAddr.toNat s.msgAddr.toNat s.dstAddr.toNat s = true)
    (hnameLen : s.nameLen.toNat = name.length) (hmsgLen : s.msgLen.toNat = rest.length) (hn : 1 ≤ name.length)
    (hn' : name.length ≤ 15) (hr : 1 ≤ rest.length) :
    ∃ s', execPktAsm s = .next s' ∧ s'.err = 0#4 ∧ s'.memSize = s.memSize ∧
      s'.mem = s.mem.writeBytes s.dstAddr.toNat (packetBytes name (rest.take 31)) ∧
      s'.resMsgLen.toNat = (rest.take 31).length ∧ s'.resSize.toNat = (packetBytes name (rest.take 31)).length := by
  obtain ⟨hnameFit, hrestFit, houtFit, hholdsName, hholdsRest, -, -⟩ := encodePre_iff.1 hpre
  have hsize := encodedSize_step name.length rest.length hr
  have htake : (rest.take 31).length = min 31 rest.length := List.length_take
  have hchunkLen : s.chunkLen = (rest.take 31).length := by
    rw [State.chunkLen, hmsgLen, htake, Nat.min_comm]; rfl
  have hasmSize : s.asmSize = 2 + name.length + (rest.take 31).length := by
    rw [State.asmSize, hnameLen, hchunkLen]; rfl
  rw [← List.take_append_drop 31 rest, Memory.holds_append] at hholdsRest
  have hexec := execPktAsm_ok (s := s) (by omega) (by omega) (by omega) (by omega) (by omega) (by omega)
    (hnameLen ▸ Memory.readBytes_of_holds hholdsName) (hchunkLen ▸ Memory.readBytes_of_holds hholdsRest.1)
  refine ⟨_, hexec, State.err_withStatus _ _, rfl, rfl, ?_, ?_⟩
  · rw [State.withStatus_resMsgLen, State.withResults_resMsgLen, toNat_ofNat_register (by omega), hchunkLen]
  · rw [State.withStatus_resSize, State.withResults_resSize, toNat_ofNat_register (by omega), hasmSize,
      packetBytes_length]

/-- One PKT_ASM as HOST_ENCODE issues it (R202): every value that it writes to a register fits. -/
theorem issueAll_asm_of_encodePre (hmem : s.memSize ≤ 2 ^ 32) (hpre : encodePre name rest na ra wa s = true)
    (hn : 1 ≤ name.length) (hn' : name.length ≤ 15) (hr : 1 ≤ rest.length) :
    ∃ s', issueAll (pseudoAccesses (.asm (BitVec.ofNat 32 na) (BitVec.ofNat 32 name.length) (BitVec.ofNat 32 ra)
        (BitVec.ofNat 32 rest.length) (BitVec.ofNat 32 wa))) s = .next s' ∧
      s'.err = 0#4 ∧ s'.memSize = s.memSize ∧ s'.mem = s.mem.writeBytes wa (packetBytes name (rest.take 31)) ∧
      (regRead .resMsgLen s').toNat = (rest.take 31).length ∧
      (regRead .resSize s').toNat = (packetBytes name (rest.take 31)).length := by
  obtain ⟨hna, hra, hrlen, hwa, -⟩ := encodePre_bounds hmem hpre hn hr
  have hexec := execPktAsm_of_encodePre (name := name) (rest := rest)
    (s := { s with
      nameAddr := BitVec.ofNat 32 na, nameLen := BitVec.ofNat 32 name.length, msgAddr := BitVec.ofNat 32 ra
      msgLen := BitVec.ofNat 32 rest.length, dstAddr := BitVec.ofNat 32 wa })
  simp only [toNat_ofNat_register hna, toNat_ofNat_register hra, toNat_ofNat_register hwa] at hexec
  rw [issueAll_asm]
  exact hexec hpre (toNat_ofNat_register (by omega)) (toNat_ofNat_register hrlen) hn hn' hr

/-- The preconditions are the loop's invariant: after a packet they hold for what is left of the text. -/
theorem encodePre_drop {s' : State} (hpre : encodePre name rest na ra wa s = true) (hr : 1 ≤ rest.length)
    (hsize' : s'.memSize = s.memSize) (hmem' : s'.mem = s.mem.writeBytes wa (packetBytes name (rest.take 31))) :
    encodePre name (rest.drop 31) na (ra + (rest.take 31).length) (wa + (packetBytes name (rest.take 31)).length) s' =
      true := by
  obtain ⟨hnameFit, hrestFit, houtFit, hholdsName, hholdsRest, hnameApart, hrestApart⟩ := encodePre_iff.1 hpre
  have hsize := encodedSize_step name.length rest.length hr
  have hother := Memory.sameOutside_writeBytes s.mem wa (packetBytes name (rest.take 31))
  rw [← hmem', packetBytes_length, List.length_take] at hother
  have hholdsName' := (Memory.holds_of_sameOutside hother (by omega)).2 hholdsName
  have hholdsRest' := (Memory.holds_of_sameOutside hother (by omega)).2 hholdsRest
  rw [← List.take_append_drop 31 rest, Memory.holds_append, List.length_take] at hholdsRest'
  rw [encodePre_iff, packetBytes_length, List.length_take, List.length_drop, hsize',
    show rest.length - 31 = rest.length - min rest.length 31 by omega]
  refine ⟨?_, ?_, ?_, hholdsName', hholdsRest'.2, ?_, ?_⟩ <;> omega

end encode

section encodeLoop

variable {na nl ta tl oa rounds cur out : Nat} {s : State}

theorem encodeLoop_done {bytes : List Byte} (hcur : tl ≤ cur) (hholds : s.mem.holds oa bytes) :
    encodeLoop na nl ta tl oa rounds cur bytes.length s = .next (.returned bytes, s) := by
  cases rounds <;> rw [encodeLoop, if_neg (Nat.not_lt.2 hcur), Memory.readBytes_of_holds hholds]

theorem encodeLoop_round {s' : State} (hcur : cur < tl)
    (hissue : issueAll (pseudoAccesses (.asm (BitVec.ofNat 32 na) (BitVec.ofNat 32 nl) (BitVec.ofNat 32 (ta + cur))
      (BitVec.ofNat 32 (tl - cur)) (BitVec.ofNat 32 (oa + out)))) s = .next s') (herr : s'.err = 0#4) :
    encodeLoop na nl ta tl oa (rounds + 1) cur out s =
      encodeLoop na nl ta tl oa rounds (cur + (regRead .resMsgLen s').toNat) (out + (regRead .resSize s').toNat) s' := by
  rw [encodeLoop, if_pos hcur, hissue]
  exact if_pos ((regRead_status_err s').trans herr)

end encodeLoop

/-- The loop of HOST_ENCODE from any point on (R202, R203): `sent` is in the output region, `rest` is left of the text. -/
theorem encodeLoop_eq_returned {name : List Byte} (hn : 1 ≤ name.length) (hn' : name.length ≤ 15) {na ta tl oa : Nat}
    (rounds : Nat) {cur : Nat} {sent rest : List Byte} {s : State} (hmem : s.memSize ≤ 2 ^ 32)
    (hrounds : rest.length ≤ rounds) (hcur : tl = cur + rest.length)
    (hpre : encodePre name rest na (ta + cur) (oa + sent.length) s = true) (hsent : s.mem.holds oa sent) :
    ∃ s', encodeLoop na name.length ta tl oa rounds cur sent.length s =
        .next (.returned (sent ++ (chunksUpTo rounds rest).flatMap (packetBytes name)), s') ∧
      s'.memSize = s.memSize ∧ s'.mem.holds oa (sent ++ (chunksUpTo rounds rest).flatMap (packetBytes name)) := by
  induction rounds generalizing cur sent rest s with
  | zero =>
    obtain rfl := List.length_eq_zero_iff.1 (Nat.le_zero.1 hrounds)
    rw [chunksUpTo_nil, List.flatMap_nil, List.append_nil]
    exact ⟨s, encodeLoop_done hcur.le hsent, rfl, hsent⟩
  | succ rounds ih =>
    obtain rfl | hne := eq_or_ne rest []
    · rw [chunksUpTo_nil, List.flatMap_nil, List.append_nil]
      exact ⟨s, encodeLoop_done hcur.le hsent, rfl, hsent⟩
    · have hr := List.length_pos_iff.2 hne
      obtain ⟨t, hissue, herr, hsize, hwrite, hmsgLen, hresSize⟩ := issueAll_asm_of_encodePre hmem hpre hn hn' hr
      have hpre' := encodePre_drop hpre hr hsize hwrite
      have hsent' : t.mem.holds oa (sent ++ packetBytes name (rest.take 31)) := by
        rw [hwrite, Memory.holds_append]
        refine ⟨?_, Memory.holds_writeBytes _ _ _⟩
        exact (Memory.holds_of_sameOutside (Memory.sameOutside_writeBytes _ _ _) (by omega)).2 hsent
      rw [Nat.add_assoc, Nat.add_assoc, ← List.length_append] at hpre'
      obtain ⟨s', hloop, hsize', hholds⟩ := ih (hsize.trans_le hmem) (by rw [List.length_drop]; omega)
        (by rw [hcur, List.length_drop, List.length_take]; omega) hpre' hsent'
      rw [chunksUpTo_succ rounds rest hr, List.flatMap_cons, ← List.append_assoc]
      refine ⟨s', ?_, hsize'.trans hsize, hholds⟩
      rw [encodeLoop_round (by omega) (by rwa [hcur, Nat.add_sub_cancel_left]) herr, hmsgLen, hresSize,
        ← List.length_append, hloop]

/-- What HOST_ENCODE returns and leaves, under its preconditions (R202). -/
theorem hostEncode_eq_returned {name text : List Byte} {na ta oa : Nat} {s : State} (hmem : s.memSize ≤ 2 ^ 32)
    (hpre : encodePre name text na ta oa s = true) (hn : 1 ≤ name.length) (hn' : name.length ≤ 15)
    (ht : 1 ≤ text.length) :
    ∃ s', hostEncode name text na ta oa s = .next (.returned ((textChunks text).flatMap (packetBytes name)), s') ∧
      s'.memSize = s.memSize ∧ s'.mem.holds oa ((textChunks text).flatMap (packetBytes name)) := by
  have hloop := encodeLoop_eq_returned hn hn' (na := na) (ta := ta) (oa := oa) (cur := 0) (sent := []) text.length hmem
    le_rfl (Nat.zero_add _).symm hpre (Memory.holds_nil _ _)
  rw [hostEncode, if_pos hpre, if_neg (by omega), if_neg (by simpa [Config.nameLenMax] using hn'), if_neg (by omega)]
  exact hloop

theorem encodePre_of_hostEncode_eq_next {name text : List Byte} {na ta oa : Nat} {s : State}
    {r : HostReply (List Byte) × State} (h : hostEncode name text na ta oa s = .next r) :
    encodePre name text na ta oa s = true := by
  by_contra hpre
  rw [hostEncode, if_neg hpre] at h
  cases h

/-! ## HOST_DECODE -/

/-- The error code with which a command goes on, if it goes on. -/
def codeOf (o : Host.Outcome State Fault Refusal) : Option (BitVec 4) := (nextState? o).map State.err

theorem codeOf_eq_some {o : Host.Outcome State Fault Refusal} {e : BitVec 4} (h : codeOf o = some e) :
    ∃ t, o = .next t ∧ t.err = e := by
  cases o with
  | next t => exact ⟨t, rfl, Option.some.inj h⟩
  | fault _ | refused _ => cases h

theorem codeOf_ite_congr {c : Prop} [Decidable c] {o₁ o₂ p₁ p₂ : Host.Outcome State Fault Refusal}
    (h₁ : codeOf o₁ = codeOf p₁) (h₂ : codeOf o₂ = codeOf p₂) :
    codeOf (if c then o₁ else o₂) = codeOf (if c then p₁ else p₂) := by
  rw [apply_ite codeOf, apply_ite codeOf, h₁, h₂]

/-- How PKT_DIS ends depends on MEM and its two operands alone (43_packet.md R175). -/
theorem codeOf_execPktDis_congr {s u : State} (hmem : u.mem = s.mem) (hsize : u.memSize = s.memSize)
    (haddr : u.srcAddr = s.srcAddr) (hlen : u.srcLen = s.srcLen) :
    codeOf (execPktDis u) = codeOf (execPktDis s) := by
  have hrange : u.inRange u.srcAddr.toNat u.srcLen.toNat = s.inRange s.srcAddr.toNat s.srcLen.toNat := by
    rw [State.inRange, State.inRange, haddr, hlen, hsize]
  rw [execPktDis, execPktDis, hrange, hmem, haddr, hlen]
  refine codeOf_ite_congr (codeOf_ite_congr rfl ?_) rfl
  cases s.mem.readHeader s.srcAddr.toNat with
  | none => rfl
  | some h =>
    refine codeOf_ite_congr rfl (codeOf_ite_congr rfl (codeOf_ite_congr rfl ?_))
    cases s.mem.readBytes (s.srcAddr.toNat + 2) ((getNameLen h).toNat + (getMsgLen h).toNat) with
    | none => rfl
    | some body => exact codeOf_ite_congr rfl rfl

theorem codeOf_issueAll_dis_congr {s u : State} (hmem : u.mem = s.mem) (hsize : u.memSize = s.memSize) (a n : Word) :
    codeOf (issueAll (pseudoAccesses (.dis a n)) u) = codeOf (issueAll (pseudoAccesses (.dis a n)) s) := by
  rw [issueAll_dis, issueAll_dis]
  exact codeOf_execPktDis_congr (s := { s with srcAddr := a, srcLen := n }) hmem hsize rfl rfl

section decodeLoop

variable {ba l rounds off : Nat} {seen : Option (List Byte)} {acc : List Byte} {s : State}

theorem decodeLoop_done (hoff : l ≤ off) :
    decodeLoop ba l rounds off seen acc s = .next (.returned (seen.getD [], acc), s) := by
  cases rounds <;> exact if_neg (Nat.not_lt.2 hoff)

theorem decodeLoop_failed {s' : State} (hoff : off < l)
    (hissue : issueAll (pseudoAccesses (.dis (BitVec.ofNat 32 (ba + off)) (BitVec.ofNat 32 (l - off)))) s = .next s')
    (herr : s'.err ≠ 0#4) : decodeLoop ba l (rounds + 1) off seen acc s = .next (.failed s'.err, s') := by
  rw [decodeLoop, if_pos hoff, hissue, ← regRead_status_err s']
  exact if_neg fun h => herr ((regRead_status_err s').symm.trans h)

/-- A round of HOST_DECODE at a well-formed packet (R204): the name is compared, then the chunk is taken. -/
theorem decodeLoop_packet {p : List Byte} (hp : packetWf p = true) (hmem : s.memSize ≤ 2 ^ 32) (hl : l < 2 ^ 32)
    (hfit : ba + l ≤ s.memSize) (hoff : off + p.length ≤ l) (hholds : s.mem.holds (ba + off) p) :
    ∃ s', s'.mem = s.mem ∧ s'.memSize = s.memSize ∧ decodeLoop ba l (rounds + 1) off seen acc s =
      if seen = none ∨ seen = some (packetName p) then
        decodeLoop ba l rounds (off + p.length) (some (packetName p)) (acc ++ packetChunk p) s'
      else .next (.failed ErrCode.inconsistentSender.code, s') := by
  obtain ⟨hpos, s', hissue, herr, hmem', hsize', hres, hname, hchunk⟩ := issueAll_dis_of_packetWf hp (a := ba + off)
    (len := l - off) hmem (by omega) (by omega) (by omega) hholds
  refine ⟨s', hmem', hsize', ?_⟩
  rw [decodeLoop, if_pos (by omega), hissue]
  refine (if_pos ((regRead_status_err s').trans herr)).trans ?_
  rw [hname, hchunk, hres]

end decodeLoop

/-- The loop of HOST_DECODE over packets of one name, whatever follows them (R204). -/
theorem decodeLoop_packets {name : List Byte} (packets : List (List Byte))
    (hpackets : ∀ p ∈ packets, packetWf p = true ∧ packetName p = name) {ba l rounds off : Nat}
    {seen : Option (List Byte)} {acc : List Byte} {s : State} (hseen : seen = none ∨ seen = some name)
    (hmem : s.memSize ≤ 2 ^ 32) (hl : l < 2 ^ 32) (hfit : ba + l ≤ s.memSize) (hoff : off + packets.flatten.length ≤ l)
    (hholds : s.mem.holds (ba + off) packets.flatten) :
    ∃ seen' s', s'.mem = s.mem ∧ s'.memSize = s.memSize ∧ (packets ≠ [] ∨ seen = some name → seen' = some name) ∧
      decodeLoop ba l (rounds + packets.length) off seen acc s =
        decodeLoop ba l rounds (off + packets.flatten.length) seen' (acc ++ packets.flatMap packetChunk) s' := by
  induction packets generalizing off seen acc s with
  | nil => exact ⟨seen, s, rfl, rfl, by simp, by simp⟩
  | cons p packets ih =>
    obtain ⟨⟨hp, rfl⟩, hpackets⟩ := List.forall_mem_cons.1 hpackets
    rw [List.flatten_cons, List.length_append] at hoff
    obtain ⟨hholdsP, hholdsRest⟩ := (Memory.holds_append _ _ _ _).1 hholds
    obtain ⟨t, htmem, htsize, hround⟩ := decodeLoop_packet (rounds := rounds + packets.length) (seen := seen) (acc := acc)
      hp hmem hl hfit (by omega) hholdsP
    rw [if_pos hseen] at hround
    obtain ⟨seen', s', hmem', hsize', hseen', hloop⟩ := ih hpackets (off := off + p.length)
      (acc := acc ++ packetChunk p) (s := t) (.inr rfl) (htsize.trans_le hmem) (htsize ▸ hfit) (by omega)
      (by rwa [htmem, ← Nat.add_assoc])
    refine ⟨seen', s', hmem'.trans htmem, hsize'.trans htsize, fun _ => hseen' (.inr rfl), ?_⟩
    rw [List.length_cons, ← Nat.add_assoc, hround, hloop, List.flatten_cons, List.length_append, List.flatMap_cons,
      Nat.add_assoc, List.append_assoc]

theorem length_pos_of_packetWf {p : List Byte} (h : packetWf p = true) : 1 ≤ p.length := by
  obtain ⟨b0, b1, body, rfl, -⟩ := (packetWf_iff p).1 h
  exact Nat.succ_pos _

theorem length_le_length_flatten {packets : List (List Byte)} (h : ∀ p ∈ packets, packetWf p = true) :
    packets.length ≤ packets.flatten.length := by
  induction packets with
  | nil => rfl
  | cons p packets ih =>
    obtain ⟨hp, hpackets⟩ := List.forall_mem_cons.1 h
    have hpos := length_pos_of_packetWf hp
    have hle := ih hpackets
    rw [List.flatten_cons, List.length_append, List.length_cons]
    omega

/-- HOST_DECODE of a buffer that starts with packets of one name, up to their end. At least as many rounds are left as bytes
follow. -/
theorem hostDecode_packets {packets : List (List Byte)} {name rest : List Byte} {ba : Nat} {s : State}
    (hmem : s.memSize ≤ 2 ^ 32) (hpackets : ∀ p ∈ packets, packetWf p = true ∧ packetName p = name)
    (hpos : 1 ≤ (packets.flatten ++ rest).length) (hl : (packets.flatten ++ rest).length < 2 ^ 32)
    (hfit : ba + (packets.flatten ++ rest).length ≤ s.memSize) (hholds : s.mem.holds ba (packets.flatten ++ rest)) :
    ∃ rounds seen s', rest.length ≤ rounds ∧ s'.mem = s.mem ∧ s'.memSize = s.memSize ∧
      (packets ≠ [] → seen = some name) ∧
      hostDecode ba (packets.flatten ++ rest).length s =
        decodeLoop ba (packets.flatten ++ rest).length rounds packets.flatten.length seen (packets.flatMap packetChunk)
          s' := by
  have hpre : decodePre ba (packets.flatten ++ rest).length s = true :=
    decodePre_iff.2 ⟨.inr hfit, ⟨_, rfl, hholds⟩, hl⟩
  have hcount := length_le_length_flatten fun p hp => (hpackets p hp).1
  have hlen := List.length_append (as := packets.flatten) (bs := rest)
  obtain ⟨seen, s', hmem', hsize', hseen, hloop⟩ := decodeLoop_packets packets hpackets (ba := ba) (off := 0)
    (l := (packets.flatten ++ rest).length) (rounds := (packets.flatten ++ rest).length - packets.length) (acc := [])
    (.inl rfl) hmem hl hfit (by omega) ((Memory.holds_append _ _ _ _).1 hholds).1
  rw [Nat.sub_add_cancel (by omega), Nat.zero_add, List.nil_append] at hloop
  refine ⟨(packets.flatten ++ rest).length - packets.length, seen, s', by omega, hmem', hsize',
    fun h => hseen (.inl h), ?_⟩
  rw [hostDecode, if_pos hpre, if_neg (by omega), hloop]

/-! ## The obligations -/

/-- Settles O50. -/
theorem hostEncodeIsPacketSequence : Obligations.HostEncodeIsPacketSequence := by
  intro name text na ta oa s hmem hpre hn hn' ht
  obtain ⟨s', hencode, -, hholds⟩ := hostEncode_eq_returned hmem hpre hn hn' ht
  exact ⟨s', hencode, hholds⟩

/-- Settles O51. -/
theorem hostEncodeChecksInOrder : Obligations.HostEncodeChecksInOrder := by
  intro name text na ta oa s hpre
  rw [hostEncode, if_pos hpre]
  refine ⟨fun hempty => if_pos hempty, fun hlong => ?_, fun hn hn' hempty => ?_⟩
  · exact (if_neg (by omega)).trans (if_pos hlong)
  · exact (if_neg (by omega)).trans ((if_neg (Nat.not_lt.2 hn')).trans (if_pos hempty))

/-- Settles O52: chunk `k` starts at byte `31 * k`, and HOST_ENCODE goes on only under its preconditions. -/
theorem segmentationAndEncodedSize : Obligations.SegmentationAndEncodedSize := by
  intro name text hn hn' ht
  refine ⟨length_chunksUpTo le_rfl, fun k c hk => ?_, flatten_chunksUpTo le_rfl, fun na ta oa s s' out hmem h => ?_⟩
  · obtain ⟨hlt, hlen⟩ := length_of_getElem?_chunksUpTo hk
    split <;> omega
  · obtain ⟨u, hencode, -⟩ := hostEncode_eq_returned hmem (encodePre_of_hostEncode_eq_next h) hn hn' ht
    rw [h] at hencode
    cases hencode
    exact length_flatMap_textChunks name text

/-- Settles O53: after the packets nothing is left. -/
theorem hostDecodeAcceptsPacketsOfOneName : Obligations.HostDecodeAcceptsPacketsOfOneName := by
  intro packets name ba s hmem hne hpackets hl hfit hholds
  have hcount := length_le_length_flatten fun p hp => (hpackets p hp).1
  have hpos := List.length_pos_iff.2 hne
  have hdecode := hostDecode_packets (rest := []) (ba := ba) (s := s) hmem hpackets
  rw [List.append_nil] at hdecode
  obtain ⟨rounds, seen, s', -, -, -, hseen, hloop⟩ := hdecode (by omega) hl hfit hholds
  refine ⟨s', ?_⟩
  rw [hloop, hseen hne, decodeLoop_done le_rfl]
  rfl

/-- Settles O54: the packets of the text's chunks are packets of one name, and the chunks together are the text. -/
theorem hostRoundTrip : Obligations.HostRoundTrip := by
  intro name text na ta oa s hmem hpre hn hn' ht
  obtain ⟨s', hencode, hsize, hholds⟩ := hostEncode_eq_returned hmem hpre hn hn' ht
  obtain ⟨-, -, -, -, hl⟩ := encodePre_bounds hmem hpre hn ht
  obtain ⟨-, -, hfit, -⟩ := encodePre_iff.1 hpre
  have hlength := length_flatMap_textChunks name text
  have hstep := encodedSize_step name.length text.length ht
  have hdecode := fun (v : State) (ba : Nat) (hv : v.memSize ≤ 2 ^ 32) =>
    hostDecodeAcceptsPacketsOfOneName ((textChunks text).map (packetBytes name)) name ba v hv
      (List.map_eq_nil_iff.not.2 (textChunks_ne_nil ht)) (fun p => packetWf_of_mem_textPackets hn' hn)
      (hlength.trans_lt hl)
  rw [flatMap_packetChunk_textPackets hn', ← List.flatMap_def] at hdecode
  exact ⟨_, s', hencode, hdecode s' oa (hsize.trans_le hmem) (by omega) hholds, hdecode⟩

/-- Settles O55. -/
theorem emptyBufferFails : Obligations.EmptyBufferFails := fun ba s =>
  (if_pos (decodePre_iff.2 ⟨.inl rfl, ⟨[], rfl, Memory.holds_nil _ _⟩, by decide⟩)).trans (if_pos rfl)

/-- Settles O56: the name is compared after the packet's own checks have passed. -/
theorem otherNameIsInconsistentSender : Obligations.OtherNameIsInconsistentSender := by
  intro packets name q rest ba s hmem hne hpackets hq hother hl hfit hholds
  rw [List.append_assoc] at hl hfit hholds ⊢
  have hqpos := length_pos_of_packetWf hq
  have hlen : (packets.flatten ++ (q ++ rest)).length = packets.flatten.length + (q.length + rest.length) := by
    rw [List.length_append, List.length_append]
  obtain ⟨rounds, seen, t, hrounds, htmem, htsize, hseen, hloop⟩ :=
    hostDecode_packets hmem hpackets (by omega) hl hfit hholds
  rw [List.length_append] at hrounds
  obtain ⟨rounds, rfl⟩ := Nat.exists_eq_add_of_le' (hqpos.trans (by omega : q.length ≤ rounds))
  obtain ⟨-, hholdsQ, -⟩ := (Memory.holds_append _ _ _ _).1 hholds |>.imp_right (Memory.holds_append _ _ _ _).1
  obtain ⟨s', -, -, hround⟩ := decodeLoop_packet (rounds := rounds) (seen := seen) (acc := packets.flatMap packetChunk)
    hq (htsize.trans_le hmem) hl (htsize ▸ hfit) (by omega) (htmem ▸ hholdsQ)
  refine ⟨s', ?_⟩
  rw [hloop, hround, hseen hne, if_neg (by simpa using Ne.symm hother)]
  rfl

/-- Settles O57: the packets before leave MEM as it was, so PKT_DIS ends after them as it does without them. -/
theorem firstFailingPacketDecides : Obligations.FirstFailingPacketDecides := by
  intro packets name rest ba s t hmem hpackets hrest hl hfit hholds hdis herr
  have hlen := List.length_append (as := packets.flatten) (bs := rest)
  obtain ⟨rounds, seen, u, hrounds, humem, husize, -, hloop⟩ :=
    hostDecode_packets hmem hpackets (by omega) hl hfit hholds
  obtain ⟨rounds, rfl⟩ := Nat.exists_eq_add_of_le' (hrest.trans hrounds)
  have hcode := codeOf_issueAll_dis_congr humem husize (BitVec.ofNat 32 (ba + packets.flatten.length))
    (BitVec.ofNat 32 rest.length)
  rw [(issueAll_dis _ _ s).trans hdis] at hcode
  obtain ⟨s', hissue, herr'⟩ := codeOf_eq_some hcode
  refine ⟨s', ?_⟩
  rw [hloop, ← herr']
  refine decodeLoop_failed (by omega) ?_ (herr' ▸ herr)
  rwa [hlen, Nat.add_sub_cancel_left]

end Sys2Proof.Machine

/-! SUPPORT. Errors (60_exceptions.md): with which codes a command ends, and what `STATUS` then holds. -/

namespace Sys2Proof.Machine

/-- Of the codes of R231, 8 and 9 alone are kept for the host procedures (60_exceptions.md R241, R242); 13 to 15 are no code. -/
theorem ErrCode.code_written_iff (e : ErrCode) :
    (e.code.toNat ≤ 7 ∨ (10 ≤ e.code.toNat ∧ e.code.toNat ≤ 12)) ↔ e ≠ .inconsistentSender ∧ e ≠ .emptyBuffer := by
  cases e <;> decide

/-- The last thing a command does is to write `STATUS`, never with a code of the host procedures (60_exceptions.md R232). -/
theorem exec_eq_withStatus {i : Instr} {s t : State} (h : exec i s = .next t) :
    ∃ (u : State) (e : ErrCode), (e ≠ .inconsistentSender ∧ e ≠ .emptyBuffer) ∧ t = u.withStatus e := by
  obtain ⟨e, ⟨-, hcommand⟩, ht⟩ | ⟨u, ht, -⟩ := exec_cases h
  · exact ⟨s, e, hcommand, ht⟩
  · exact ⟨u, .ok, by decide, ht⟩

/-! ## The obligation -/

/-- Settles O42. -/
theorem commandStatusIsDoneWithWrittenCode : Obligations.CommandStatusIsDoneWithWrittenCode := by
  intro i s t h
  obtain ⟨u, e, hcommand, rfl⟩ := exec_eq_withStatus h
  rw [State.done_withStatus, State.err_withStatus]
  exact ⟨rfl, e.code_written_iff.2 hcommand⟩

end Sys2Proof.Machine

/-! SUPPORT. Reset and idling (70_reset_and_hazards.md): the two steps that are no host access. -/

namespace Sys2Proof.Machine

/-- `MEM_SIZE`, the events still to come and the values read are no part of the block (log entry 5). -/
theorem step_of_reset {s : State} {es : List HostEvent} (h : s.pending = .reset :: es) :
    step s = .next (State.afterReset s.memSize es s.reads) := step_of_pending h

theorem step_of_idle {s : State} (h : s.pending = []) : step s = .next s := by rw [step, h]

@[simp] theorem State.reset_pending : State.reset.pending = [] := rfl

/-! ## The obligations -/

/-- Settles O16: the step leads to a state right after reset, whose registers and MEM are those of 10_state.md R48. -/
theorem resetEventResetsBlock : Obligations.ResetEventResetsBlock := by
  intro s es hp
  obtain ⟨hafter, -⟩ := resetStateRegisters
  have hreads (r : Reg) := hafter s.memSize es s.reads r
  exact ⟨_, step_of_reset hp, fun r => (hreads r).1, (hreads .status).2.2⟩

/-- Settles O18: the state after reset has no event to come, so it is one of the idle states. -/
theorem idleStepChangesNothing : Obligations.IdleStepChangesNothing :=
  ⟨fun _ => step_of_idle, step_of_idle State.reset_pending⟩

end Sys2Proof.Machine
